-- ==== Sys2Proof/Word.lean ====
section
/-!
DEFINITION. The word types of BitPacking101 CORE (spec/00_scope.md R8, R9, R13; spec/30_encoding.md R60).
Bit 0 of every quantity is its least-significant bit (R15).
-/
namespace Sys2Proof

/-- One octet (R9): what the sink and the source move per access, and the width of `w_buf` and `r_buf` (R13). -/
abbrev Byte := BitVec 8

/-- An unsigned value of at most 32 significant bits (R8): every value operand and every result. -/
abbrev Value := BitVec 32

/-- The command operand `n`, a 6-bit unsigned bit count 0..63 (R13). -/
abbrev Count := BitVec 6

/-- A counter register `w_cnt` or `r_cnt`, 4 bits wide (R13). -/
abbrev Cnt := BitVec 4

/-- A 42-bit command word `cmd[41:0]` (R60). -/
abbrev CmdWord := BitVec 42

end Sys2Proof
end

