-- ==== Sys2Proof/Config.lean ====
section
/-!
DEFINITION. What is fixed for this hardware: the parameters of spec/00_scope.md section 3, and the names of the
three schemes and of their buckets. `PORT_PROTOCOL` and `MAX_ELEMENTS` (spec/92_eei_decisions.md D20, D21) are
open and used by no rule, so no constant stands for them. The spec leaves no value free, so there is no opaque
constant here (spec/93_implementation_defined.md part 1).
-/
namespace Sys2Proof

/-- `VALUE_BITS` (R8). -/
def Config.valueBits : Nat := 32

/-- `OCTET_BITS` (R9). -/
def Config.octetBits : Nat := 8

/-- `MAX_BITS_PER_CALL` (R10): a larger requested count is clamped to this. -/
def Config.maxBitsPerCall : Nat := 32

/-- `ZERO_WIDTH` (R12): the bit width of the value 0. -/
def Config.zeroWidth : Nat := 1

/-- The three header schemes (R11). Nothing in a stream names its scheme (R72): it comes from the opcode (R33). -/
inductive Scheme where
  | a
  | b
  | c
  deriving DecidableEq, Repr

/-- The buckets of the three schemes (R11, R153). A scheme C bucket is named by its 5-bit header field: all 32
values of the field are buckets (R74), so no unusable bucket can be written down. -/
inductive Bucket where
  | a16
  | a28
  | b13
  | b16
  | b32
  | c (header : BitVec 5)
  deriving DecidableEq, Repr

end Sys2Proof
end

