-- ==== Sys2Proof/Syntax.lean ====
section
/-!
DEFINITION. The instructions: one constructor per row of spec/opcode_table.json. The eleven commands come first
(spec/30_encoding.md R63), then the thirty-seven packed-stream elements (R69 to R71), which the codec engine fetches
from the stream and executes. An element's operand is its payload, held as a value; `Instr.WellFormed` says that it
fits its bucket.
-/
namespace Sys2Proof

/-- One constructor per row of spec/opcode_table.json. -/
inductive Instr where
  /-- WBITS value, n (R90). -/
  | wbits (value : Value) (n : Count)
  /-- WFLUSH (R91). -/
  | wflush
  /-- RBITS n (R110). -/
  | rbits (n : Count)
  /-- RINIT (R115). -/
  | rinit
  /-- BWIDTH value (R130). -/
  | bwidth (value : Value)
  /-- ENC.A value (R142). -/
  | encA (value : Value)
  /-- ENC.B value (R144). -/
  | encB (value : Value)
  /-- ENC.C value (R146). -/
  | encC (value : Value)
  /-- DEC.A (R143). -/
  | decA
  /-- DEC.B (R145). -/
  | decB
  /-- DEC.C (R147). -/
  | decC
  /-- ELEM.A16 (R69). -/
  | elemA16 (payload : Value)
  /-- ELEM.A28 (R69). -/
  | elemA28 (payload : Value)
  /-- ELEM.B13 (R70). -/
  | elemB13 (payload : Value)
  /-- ELEM.B16 (R70). -/
  | elemB16 (payload : Value)
  /-- ELEM.B32 (R70). -/
  | elemB32 (payload : Value)
  /-- ELEM.C1 (R71). -/
  | elemC1 (payload : Value)
  /-- ELEM.C2 (R71). -/
  | elemC2 (payload : Value)
  /-- ELEM.C3 (R71). -/
  | elemC3 (payload : Value)
  /-- ELEM.C4 (R71). -/
  | elemC4 (payload : Value)
  /-- ELEM.C5 (R71). -/
  | elemC5 (payload : Value)
  /-- ELEM.C6 (R71). -/
  | elemC6 (payload : Value)
  /-- ELEM.C7 (R71). -/
  | elemC7 (payload : Value)
  /-- ELEM.C8 (R71). -/
  | elemC8 (payload : Value)
  /-- ELEM.C9 (R71). -/
  | elemC9 (payload : Value)
  /-- ELEM.C10 (R71). -/
  | elemC10 (payload : Value)
  /-- ELEM.C11 (R71). -/
  | elemC11 (payload : Value)
  /-- ELEM.C12 (R71). -/
  | elemC12 (payload : Value)
  /-- ELEM.C13 (R71). -/
  | elemC13 (payload : Value)
  /-- ELEM.C14 (R71). -/
  | elemC14 (payload : Value)
  /-- ELEM.C15 (R71). -/
  | elemC15 (payload : Value)
  /-- ELEM.C16 (R71). -/
  | elemC16 (payload : Value)
  /-- ELEM.C17 (R71). -/
  | elemC17 (payload : Value)
  /-- ELEM.C18 (R71). -/
  | elemC18 (payload : Value)
  /-- ELEM.C19 (R71). -/
  | elemC19 (payload : Value)
  /-- ELEM.C20 (R71). -/
  | elemC20 (payload : Value)
  /-- ELEM.C21 (R71). -/
  | elemC21 (payload : Value)
  /-- ELEM.C22 (R71). -/
  | elemC22 (payload : Value)
  /-- ELEM.C23 (R71). -/
  | elemC23 (payload : Value)
  /-- ELEM.C24 (R71). -/
  | elemC24 (payload : Value)
  /-- ELEM.C25 (R71). -/
  | elemC25 (payload : Value)
  /-- ELEM.C26 (R71). -/
  | elemC26 (payload : Value)
  /-- ELEM.C27 (R71). -/
  | elemC27 (payload : Value)
  /-- ELEM.C28 (R71). -/
  | elemC28 (payload : Value)
  /-- ELEM.C29 (R71). -/
  | elemC29 (payload : Value)
  /-- ELEM.C30 (R71). -/
  | elemC30 (payload : Value)
  /-- ELEM.C31 (R71). -/
  | elemC31 (payload : Value)
  /-- ELEM.C32 (R71). -/
  | elemC32 (payload : Value)
  deriving DecidableEq, Repr

end Sys2Proof
end

