-- ==== Sys2Proof/WellFormed.lean ====
section
/-!
DEFINITION. Well-formed instructions. A command has no illegal operand: its fields have the widths of R60 and every
word with a non-reserved opcode is legal (spec/30_encoding.md R64). An element's payload must fit the bucket that
carries it (R69 to R71): the bits of a payload above its bucket have no place in the stream.
-/
namespace Sys2Proof

/-- The value `p` fits a payload of `k` bits: it is below `2^k`. -/
def payloadFits (p : Value) (k : Nat) : Bool := p.toNat < 2 ^ k

/-- An instruction has an encoding that loses nothing of it. -/
def Instr.WellFormed : Instr → Bool
  | .wbits _ _ => true
  | .wflush => true
  | .rbits _ => true
  | .rinit => true
  | .bwidth _ => true
  | .encA _ => true
  | .encB _ => true
  | .encC _ => true
  | .decA => true
  | .decB => true
  | .decC => true
  | .elemA16 p => payloadFits p 16
  | .elemA28 p => payloadFits p 28
  | .elemB13 p => payloadFits p 13
  | .elemB16 p => payloadFits p 16
  | .elemB32 p => payloadFits p 32
  | .elemC1 p => payloadFits p 1
  | .elemC2 p => payloadFits p 2
  | .elemC3 p => payloadFits p 3
  | .elemC4 p => payloadFits p 4
  | .elemC5 p => payloadFits p 5
  | .elemC6 p => payloadFits p 6
  | .elemC7 p => payloadFits p 7
  | .elemC8 p => payloadFits p 8
  | .elemC9 p => payloadFits p 9
  | .elemC10 p => payloadFits p 10
  | .elemC11 p => payloadFits p 11
  | .elemC12 p => payloadFits p 12
  | .elemC13 p => payloadFits p 13
  | .elemC14 p => payloadFits p 14
  | .elemC15 p => payloadFits p 15
  | .elemC16 p => payloadFits p 16
  | .elemC17 p => payloadFits p 17
  | .elemC18 p => payloadFits p 18
  | .elemC19 p => payloadFits p 19
  | .elemC20 p => payloadFits p 20
  | .elemC21 p => payloadFits p 21
  | .elemC22 p => payloadFits p 22
  | .elemC23 p => payloadFits p 23
  | .elemC24 p => payloadFits p 24
  | .elemC25 p => payloadFits p 25
  | .elemC26 p => payloadFits p 26
  | .elemC27 p => payloadFits p 27
  | .elemC28 p => payloadFits p 28
  | .elemC29 p => payloadFits p 29
  | .elemC30 p => payloadFits p 30
  | .elemC31 p => payloadFits p 31
  | .elemC32 p => payloadFits p 32

end Sys2Proof
end

