-- ==== Sys2Proof/Decode.lean ====
section
/-!
DEFINITION. The two encodings of spec/30_encoding.md, decoded and encoded: command words (part 1, R60 to R64) and
packed-stream elements (part 2, R68 to R75). A stream is a list of bits, first stream bit first (R45). Every
definition here is total: a command word with a reserved opcode is rejected by name (R64), and every bit string
decodes as an element of any scheme (R74).
-/
namespace Sys2Proof

/-! ### Bits, fields and octets -/

/-- The low `n` bits of `v`, bit 0 first: the order in which the writer sends a field (R44). -/
def lowBits (n : Nat) (v : Value) : List Bool := (List.range n).map v.getLsbD

/-- The number whose bit `i` is the `i`-th bit of the list. -/
def fieldOf : List Bool → Nat
  | [] => 0
  | b :: bs => b.toNat + 2 * fieldOf bs

/-- A field of `n` bits taken from the front of a stream, and what follows it. Bits missing at the end of the stream
are 0, with the zeros above the bits that are there (R74, R114). -/
def takeField (n : Nat) (bits : List Bool) : Value × List Bool :=
  (BitVec.ofNat 32 (fieldOf (bits.take n)), bits.drop n)

/-- The eight bits of an octet, bit 0 first (R46). -/
def byteBits (b : Byte) : List Bool := (List.range 8).map b.getLsbD

/-- The stream bits of a sequence of octets (R45): stream bit `k` is bit `k mod 8` of octet `floor(k/8)`. -/
def streamBits (bytes : List Byte) : List Bool := bytes.flatMap byteBits

/-- The octets that hold a stream (R45, R99): octet `m` is the sum of stream bit `8m+j` times `2^j`, with bits past the
last one counted as 0. -/
def packOctets (bits : List Bool) : List Byte :=
  (List.range ((bits.length + 7) / 8)).map fun m => BitVec.ofNat 8 (fieldOf ((bits.drop (8 * m)).take 8))

/-! ### The scheme table -/

/-- The scheme a bucket belongs to (R11). -/
def Bucket.scheme : Bucket → Scheme
  | .a16 | .a28 => .a
  | .b13 | .b16 | .b32 => .b
  | .c _ => .c

/-- Header bits of an element (R11, R76). -/
def Bucket.headerBits : Bucket → Nat
  | .a16 | .a28 => 1
  | .b13 => 1
  | .b16 | .b32 => 2
  | .c _ => 5

/-- The header value as WriteBits writes it (R69 to R71). -/
def Bucket.headerCode : Bucket → Value
  | .a16 => 1
  | .a28 => 0
  | .b13 => 1
  | .b16 => 2
  | .b32 => 0
  | .c h => h.setWidth 32

/-- The payload width a scheme C header names: 32 for the field 0, otherwise the field (R71). -/
def widthOfHeader (h : BitVec 5) : Nat := if h = 0 then 32 else h.toNat

/-- Payload bits of an element (R11). -/
def Bucket.payloadBits : Bucket → Nat
  | .a16 => 16
  | .a28 => 28
  | .b13 => 13
  | .b16 => 16
  | .b32 => 32
  | .c h => widthOfHeader h

/-- A packed-stream element: a bucket, whose header it carries, and a payload (R68). -/
structure Element where
  bucket : Bucket
  payload : Value
  deriving DecidableEq, Repr

/-- The length of an element, header plus payload (R152). -/
def Bucket.totalBits (b : Bucket) : Nat := b.headerBits + b.payloadBits

/-- An element as the instruction of the opcode table that it is. -/
def Element.toInstr (e : Element) : Instr :=
  match e.bucket with
  | .a16 => .elemA16 e.payload
  | .a28 => .elemA28 e.payload
  | .b13 => .elemB13 e.payload
  | .b16 => .elemB16 e.payload
  | .b32 => .elemB32 e.payload
  | .c h =>
    match widthOfHeader h with
    | 1 => .elemC1 e.payload
    | 2 => .elemC2 e.payload
    | 3 => .elemC3 e.payload
    | 4 => .elemC4 e.payload
    | 5 => .elemC5 e.payload
    | 6 => .elemC6 e.payload
    | 7 => .elemC7 e.payload
    | 8 => .elemC8 e.payload
    | 9 => .elemC9 e.payload
    | 10 => .elemC10 e.payload
    | 11 => .elemC11 e.payload
    | 12 => .elemC12 e.payload
    | 13 => .elemC13 e.payload
    | 14 => .elemC14 e.payload
    | 15 => .elemC15 e.payload
    | 16 => .elemC16 e.payload
    | 17 => .elemC17 e.payload
    | 18 => .elemC18 e.payload
    | 19 => .elemC19 e.payload
    | 20 => .elemC20 e.payload
    | 21 => .elemC21 e.payload
    | 22 => .elemC22 e.payload
    | 23 => .elemC23 e.payload
    | 24 => .elemC24 e.payload
    | 25 => .elemC25 e.payload
    | 26 => .elemC26 e.payload
    | 27 => .elemC27 e.payload
    | 28 => .elemC28 e.payload
    | 29 => .elemC29 e.payload
    | 30 => .elemC30 e.payload
    | 31 => .elemC31 e.payload
    | _ => .elemC32 e.payload

/-- The element an instruction is; a command is none. -/
def Instr.element? : Instr → Option Element
  | .wbits _ _ => none
  | .wflush => none
  | .rbits _ => none
  | .rinit => none
  | .bwidth _ => none
  | .encA _ => none
  | .encB _ => none
  | .encC _ => none
  | .decA => none
  | .decB => none
  | .decC => none
  | .elemA16 p => some ⟨.a16, p⟩
  | .elemA28 p => some ⟨.a28, p⟩
  | .elemB13 p => some ⟨.b13, p⟩
  | .elemB16 p => some ⟨.b16, p⟩
  | .elemB32 p => some ⟨.b32, p⟩
  | .elemC1 p => some ⟨.c 1, p⟩
  | .elemC2 p => some ⟨.c 2, p⟩
  | .elemC3 p => some ⟨.c 3, p⟩
  | .elemC4 p => some ⟨.c 4, p⟩
  | .elemC5 p => some ⟨.c 5, p⟩
  | .elemC6 p => some ⟨.c 6, p⟩
  | .elemC7 p => some ⟨.c 7, p⟩
  | .elemC8 p => some ⟨.c 8, p⟩
  | .elemC9 p => some ⟨.c 9, p⟩
  | .elemC10 p => some ⟨.c 10, p⟩
  | .elemC11 p => some ⟨.c 11, p⟩
  | .elemC12 p => some ⟨.c 12, p⟩
  | .elemC13 p => some ⟨.c 13, p⟩
  | .elemC14 p => some ⟨.c 14, p⟩
  | .elemC15 p => some ⟨.c 15, p⟩
  | .elemC16 p => some ⟨.c 16, p⟩
  | .elemC17 p => some ⟨.c 17, p⟩
  | .elemC18 p => some ⟨.c 18, p⟩
  | .elemC19 p => some ⟨.c 19, p⟩
  | .elemC20 p => some ⟨.c 20, p⟩
  | .elemC21 p => some ⟨.c 21, p⟩
  | .elemC22 p => some ⟨.c 22, p⟩
  | .elemC23 p => some ⟨.c 23, p⟩
  | .elemC24 p => some ⟨.c 24, p⟩
  | .elemC25 p => some ⟨.c 25, p⟩
  | .elemC26 p => some ⟨.c 26, p⟩
  | .elemC27 p => some ⟨.c 27, p⟩
  | .elemC28 p => some ⟨.c 28, p⟩
  | .elemC29 p => some ⟨.c 29, p⟩
  | .elemC30 p => some ⟨.c 30, p⟩
  | .elemC31 p => some ⟨.c 31, p⟩
  | .elemC32 p => some ⟨.c 0, p⟩

/-! ### Decoding -/

/-- What decoding a code answers: an instruction, or the reserved opcode that rejects it (R64). -/
inductive Decoded where
  | instr (i : Instr)
  | reserved (op : BitVec 4)
  deriving DecidableEq, Repr

/-- `op = cmd[41:38]` (R60). -/
def opField (w : CmdWord) : BitVec 4 := w.extractLsb' 38 4

/-- `n = cmd[37:32]` (R60). -/
def nField (w : CmdWord) : Count := w.extractLsb' 32 6

/-- `value = cmd[31:0]` (R60). -/
def valueField (w : CmdWord) : Value := w.extractLsb' 0 32

/-- The mask of the opcode map (R63): it covers `op` only. -/
def opMask : CmdWord := BitVec.ofNat 42 0x3C000000000

/-- The opcode map (R63). A field a format does not use takes no part (R61). -/
def decodeCommand (w : CmdWord) : Decoded :=
  match (opField w).toNat with
  | 0x1 => .instr (.wbits (valueField w) (nField w))
  | 0x2 => .instr .wflush
  | 0x3 => .instr (.rbits (nField w))
  | 0x4 => .instr .rinit
  | 0x5 => .instr (.bwidth (valueField w))
  | 0x8 => .instr (.encA (valueField w))
  | 0x9 => .instr (.encB (valueField w))
  | 0xA => .instr (.encC (valueField w))
  | 0xC => .instr .decA
  | 0xD => .instr .decB
  | 0xE => .instr .decC
  | _ => .reserved (opField w)

/-- A payload of the bucket's width taken from the stream behind a header. -/
def takePayload (b : Bucket) (bits : List Bool) : Element × List Bool :=
  (⟨b, (takeField b.payloadBits bits).1⟩, (takeField b.payloadBits bits).2)

/-- One element of a scheme taken from the front of a stream, and what follows it (R69 to R72). The header is
recognised from the first bits alone; bits missing at the end read as 0 (R74). -/
def decodeElement (sch : Scheme) (bits : List Bool) : Element × List Bool :=
  match sch with
  | .a =>
    let (h, rest) := takeField 1 bits
    if h = 1 then takePayload .a16 rest else takePayload .a28 rest
  | .b =>
    let (h1, rest) := takeField 1 bits
    if h1 = 1 then takePayload .b13 rest
    else
      let (h2, rest2) := takeField 1 rest
      if h2 = 1 then takePayload .b16 rest2 else takePayload .b32 rest2
  | .c =>
    let (h, rest) := takeField 5 bits
    takePayload (.c (h.setWidth 5)) rest

/-- The form in which an instruction is given to the hardware: a command word for the command port, or the bits of an
element with the scheme that the decoder must know from outside the stream (R72). -/
inductive Code where
  | word (w : CmdWord)
  | element (sch : Scheme) (bits : List Bool)
  deriving DecidableEq, Repr

/-- Decoding, total on every code. -/
def decode : Code → Decoded
  | .word w => decodeCommand w
  | .element sch bits => .instr (decodeElement sch bits).1.toInstr

/-! ### Encoding -/

/-- A command word from its three fields (R60): `(op << 38) | (n << 32) | value`. -/
def cmdWord (op : BitVec 4) (n : Count) (value : Value) : CmdWord :=
  BitVec.ofNat 42 (op.toNat * 2 ^ 38 + n.toNat * 2 ^ 32 + value.toNat)

/-- The stream bits of an element: the whole header, then the payload, each least-significant bit first (R68). -/
def elementBits (e : Element) : List Bool :=
  lowBits e.bucket.headerBits e.bucket.headerCode ++ lowBits e.bucket.payloadBits e.payload

/-- The element bits as a code of the element's own scheme. -/
def elementCode (e : Element) : Code := .element e.bucket.scheme (elementBits e)

/-- Encoding. In an assembled word every ignored field is 0 (R66). -/
def encode : Instr → Code
  | .wbits v n => .word (cmdWord 0x1 n v)
  | .wflush => .word (cmdWord 0x2 0 0)
  | .rbits n => .word (cmdWord 0x3 n 0)
  | .rinit => .word (cmdWord 0x4 0 0)
  | .bwidth v => .word (cmdWord 0x5 0 v)
  | .encA v => .word (cmdWord 0x8 0 v)
  | .encB v => .word (cmdWord 0x9 0 v)
  | .encC v => .word (cmdWord 0xA 0 v)
  | .decA => .word (cmdWord 0xC 0 0)
  | .decB => .word (cmdWord 0xD 0 0)
  | .decC => .word (cmdWord 0xE 0 0)
  | .elemA16 p => elementCode ⟨.a16, p⟩
  | .elemA28 p => elementCode ⟨.a28, p⟩
  | .elemB13 p => elementCode ⟨.b13, p⟩
  | .elemB16 p => elementCode ⟨.b16, p⟩
  | .elemB32 p => elementCode ⟨.b32, p⟩
  | .elemC1 p => elementCode ⟨.c 1, p⟩
  | .elemC2 p => elementCode ⟨.c 2, p⟩
  | .elemC3 p => elementCode ⟨.c 3, p⟩
  | .elemC4 p => elementCode ⟨.c 4, p⟩
  | .elemC5 p => elementCode ⟨.c 5, p⟩
  | .elemC6 p => elementCode ⟨.c 6, p⟩
  | .elemC7 p => elementCode ⟨.c 7, p⟩
  | .elemC8 p => elementCode ⟨.c 8, p⟩
  | .elemC9 p => elementCode ⟨.c 9, p⟩
  | .elemC10 p => elementCode ⟨.c 10, p⟩
  | .elemC11 p => elementCode ⟨.c 11, p⟩
  | .elemC12 p => elementCode ⟨.c 12, p⟩
  | .elemC13 p => elementCode ⟨.c 13, p⟩
  | .elemC14 p => elementCode ⟨.c 14, p⟩
  | .elemC15 p => elementCode ⟨.c 15, p⟩
  | .elemC16 p => elementCode ⟨.c 16, p⟩
  | .elemC17 p => elementCode ⟨.c 17, p⟩
  | .elemC18 p => elementCode ⟨.c 18, p⟩
  | .elemC19 p => elementCode ⟨.c 19, p⟩
  | .elemC20 p => elementCode ⟨.c 20, p⟩
  | .elemC21 p => elementCode ⟨.c 21, p⟩
  | .elemC22 p => elementCode ⟨.c 22, p⟩
  | .elemC23 p => elementCode ⟨.c 23, p⟩
  | .elemC24 p => elementCode ⟨.c 24, p⟩
  | .elemC25 p => elementCode ⟨.c 25, p⟩
  | .elemC26 p => elementCode ⟨.c 26, p⟩
  | .elemC27 p => elementCode ⟨.c 27, p⟩
  | .elemC28 p => elementCode ⟨.c 28, p⟩
  | .elemC29 p => elementCode ⟨.c 29, p⟩
  | .elemC30 p => elementCode ⟨.c 30, p⟩
  | .elemC31 p => elementCode ⟨.c 31, p⟩
  | .elemC32 p => elementCode ⟨.c 0, p⟩

/-- The number of bits of a code. -/
def Code.bitLength : Code → Nat
  | .word _ => 42
  | .element _ bits => bits.length

/-! ### The opcode table's numbering -/

/-- The buckets in the order in which a table word is matched against them: the longest header first, so that the most
definite pattern is tried before the ones that share its first bits. -/
def tableBuckets : List Bucket :=
  (List.range 32).map (fun h => Bucket.c (BitVec.ofNat 5 h)) ++ [.b16, .b32, .a16, .a28, .b13]

/-- The first `len` symbols of a table pattern, leftmost first. The table prints an element with its first stream bit
leftmost, and the numbering of its rows takes the rightmost symbol as bit 0, so stream bit `k` is bit
`len - 1 - k` of the number. -/
def patternBits (len w : Nat) : List Bool := ((List.range len).map w.testBit).reverse

/-- The number `w` is an element of bucket `b` in the table's numbering: it has the element's length and starts with
its header. -/
def isTableElement (w : Nat) (b : Bucket) : Bool :=
  w < 2 ^ b.totalBits &&
    (patternBits b.totalBits w).take b.headerBits == lowBits b.headerBits b.headerCode

/-- The bucket a table word of `nbits` bits belongs to: a row of exactly that length if one matches, otherwise a row
whose length fills the same number of whole bytes. -/
def tableBucket? (nbits w : Nat) : Option Bucket :=
  match tableBuckets.find? fun b => b.totalBits == nbits && isTableElement w b with
  | some b => some b
  | none => tableBuckets.find? fun b => (b.totalBits + 7) / 8 * 8 == nbits && isTableElement w b

/-- The code an opcode-table word of `nbits` bits stands for: a command word in its 42 bits (or the 48 of its whole
bytes), or an element's stream bits. -/
def tableCode? (nbits w : Nat) : Option Code :=
  if 42 ≤ nbits then
    if nbits ≤ 48 && w < 2 ^ 42 then some (.word (BitVec.ofNat 42 w)) else none
  else
    (tableBucket? nbits w).map fun b => .element b.scheme (patternBits b.totalBits w)

/-- The instruction the decoder reads from an opcode-table word, none where it refuses. -/
def decodeTableWord (nbits w : Nat) : Option Instr :=
  match (tableCode? nbits w).map decode with
  | some (.instr i) => some i
  | some (.reserved _) => none
  | none => none

end Sys2Proof
end

