-- ==== Sys2Proof/Machine/State.lean ====
section
/-!
DEFINITION. The state of the machine (spec/10_state.md): the four registers of R20, the sink and the source of R27 and
R28, the command port's pending host actions (spec/60_exceptions.md R208), and the result the last command returned
(spec/30_encoding.md R65). The reasons a step can stop.
-/
namespace Sys2Proof.Machine

/-- What the host may do between commands (R208). -/
inductive HostAction where
  /-- ISSUE `cmd`: the core executes the command atomically and returns its result. -/
  | issue (cmd : CmdWord)
  /-- READ-SINK: the host observes the sink. -/
  | readSink
  /-- CLEAR-SINK. -/
  | clearSink
  /-- LOAD-SOURCE `bytes`. -/
  | loadSource (bytes : List Byte)
  /-- APPEND-SOURCE `bytes`: how "data reappears" (R59). -/
  | appendSource (bytes : List Byte)
  /-- REWIND. -/
  | rewind
  /-- RESET (R220). -/
  | reset
  deriving DecidableEq, Repr

/-- Everything the spec gives the machine. -/
structure State where
  /-- `w_buf`, the writer's pending byte (R21). -/
  wBuf : Byte
  /-- `w_cnt`, the writer's count of valid bits (R22). -/
  wCnt : Cnt
  /-- `r_buf`, the reader's buffered octet (R24). -/
  rBuf : Byte
  /-- `r_cnt`, the reader's count of unconsumed bits (R25). -/
  rCnt : Cnt
  /-- The sink: every octet pushed since it was last cleared, first pushed first (R27). -/
  sink : List Byte
  /-- The source: the octets not yet read, next one first (R28). -/
  src : List Byte
  /-- The host's actions still to come, next one first: the host sequences commands, the core fetches nothing (R30).
  DESIGN CHOICE, safe (notes/assumptions/2.md). -/
  port : List HostAction
  /-- The result the last command returned; none for a command that returns none (R65). That it stands in a slot until
  the next command is a DESIGN CHOICE, safe (notes/assumptions/5.md). -/
  result : Option Value
  deriving DecidableEq, Repr

/-- The core has no fault state and no command can fail to complete (R200, R206): no fault exists. -/
inductive Fault where
  deriving DecidableEq, Repr

/-- Why a step is refused. -/
inductive Refusal where
  /-- Raised by exec's arm of an instruction that has no meaning yet. Safe. No arm raises it. -/
  | notModelled (mnemonic : String)
  /-- Raised by `step` on a command word whose opcode is reserved: the spec gives it no meaning and a model must
  refuse it (R64, R203). Safe (notes/assumptions/8.md). -/
  | reservedOpcode (op : BitVec 4)
  /-- Raised by WBITS, WFLUSH and the ENC commands when the writer's registers are outside the invariant of R23: R38
  gives such values no meaning and has a model refuse them. DESIGN CHOICE, safe: unreachable from reset
  (notes/assumptions/6.md). -/
  | writerOutsideInvariant
  /-- Raised by RBITS and the DEC commands when `r_cnt` is outside the invariant of R26 (R38).
  DESIGN CHOICE, safe: unreachable from reset (notes/assumptions/6.md). -/
  | readerOutsideInvariant
  deriving DecidableEq, Repr

/-- The machine right after reset (R34, R220): the four registers 0. Reset does not touch the sink or the source
(R221); both start empty here, no host action is pending and no result has been returned: DESIGN CHOICE, unsafe
(notes/assumptions/1.md). -/
def State.reset : State :=
  { wBuf := 0, wCnt := 0, rBuf := 0, rCnt := 0, sink := [], src := [], port := [], result := none }

end Sys2Proof.Machine
end

