-- ==== Sys2Proof/Machine/Operands.lean ====
section
/-!
DEFINITION. Operand assembly (spec/30_encoding.md R62) and the bit_width_calculator BWC (spec/42_bit_width_calculator.md):
the functions of an operand alone, without state.
-/
namespace Sys2Proof.Machine

/-- `n' = min(n, 32)` (R62, R92, R112). -/
def clampCount (n : Nat) : Nat := min n Config.maxBitsPerCall

/-- The scan of R130 over bit positions `p-1` down to 0: the 1-based position of the highest set bit found, and
`ZERO_WIDTH` when none is. -/
def scanDown (v : Value) : Nat → Nat
  | 0 => Config.zeroWidth
  | p + 1 => if v.getLsbD p then p + 1 else scanDown v p

/-- `BitWidth(value)` (R130, R131). -/
def bitWidth (v : Value) : Nat := scanDown v Config.valueBits

/-- The bucket ENC.A selects: `w <= 16` takes A16, every wider value the last and largest bucket (R142, R150). -/
def selectA (v : Value) : Bucket := if bitWidth v ≤ 16 then .a16 else .a28

/-- The bucket ENC.B selects (R144, R150). -/
def selectB (v : Value) : Bucket :=
  if bitWidth v ≤ 13 then .b13 else if bitWidth v ≤ 16 then .b16 else .b32

/-- The bucket ENC.C selects: the low five bits of the exact width (R71, R146). -/
def selectC (v : Value) : Bucket := .c (BitVec.ofNat 5 (bitWidth v))

end Sys2Proof.Machine
end

