-- ==== Sys2Proof/Machine/Ops.lean ====
section
/-!
DEFINITION. The named operations over the registers and the two streams: `SinkPush` and `SrcPop`
(spec/20_memory.md R41, R42), the writer's and the reader's bodies (spec/40_bit_stream_writer.md R90, R91;
spec/41_bit_stream_reader.md R110, R111, R115), the invariants at rest (spec/10_state.md R23, R26), and how a command
completes. Nothing else touches a register or a stream. The core has no exception to take and none to return from
(spec/60_exceptions.md R200, R206), so there is no such operation.
-/
namespace Sys2Proof.Machine

/-! ### The invariants between commands -/

/-- The writer invariant (R23): `w_cnt` is in 0..7 and every bit of `w_buf` at or above `w_cnt` is 0. -/
abbrev State.WriterInv (s : State) : Prop := s.wCnt.toNat ≤ 7 ∧ s.wBuf.toNat < 2 ^ s.wCnt.toNat

/-- The reader invariant (R26): `r_cnt` is in 0..7. -/
abbrev State.ReaderInv (s : State) : Prop := s.rCnt.toNat ≤ 7

/-- Both invariants: the states between commands (R23, R26). -/
abbrev State.Inv (s : State) : Prop := s.WriterInv ∧ s.ReaderInv

/-! ### The streams -/

/-- `SinkPush(b)`: append the octet to the sink; it always succeeds (R41). -/
def sinkPush (b : Byte) (s : State) : State := { s with sink := s.sink ++ [b] }

/-- `SrcPop()`: the next octet of the source, removed from it; none from an empty source, with no effect (R42). -/
def srcPop (s : State) : Option Byte × State :=
  match s.src with
  | [] => (none, s)
  | b :: rest => (some b, { s with src := rest })

/-! ### The writer -/

/-- One turn of WBITS's loop (R90): OR the bit in at position `w_cnt`, count it, and emit the octet as soon as the
count reaches 8 (D7). -/
def writeBit (bit : Bool) (s : State) : State :=
  let buf := if bit then s.wBuf ||| ((1 : Byte) <<< s.wCnt.toNat) else s.wBuf
  let cnt := s.wCnt + 1
  if cnt = 8 then { sinkPush buf s with wBuf := 0, wCnt := 0 }
  else { s with wBuf := buf, wCnt := cnt }

/-- `WriteBits(v, k)`, the body of WBITS (R90): the low `min(k, 32)` bits of `v`, bit 0 first. -/
def writeBits (v : Value) (k : Nat) (s : State) : State :=
  (List.range (clampCount k)).foldl (fun t i => writeBit (v.getLsbD i) t) s

/-- The body of WFLUSH (R91): push the partial octet if there is one, then empty the buffer. -/
def flushWriter (s : State) : State :=
  let pushed := if s.wCnt ≠ 0 then sinkPush s.wBuf s else s
  { pushed with wBuf := 0, wCnt := 0 }

/-- Emit an element: the header, then the payload, each by WriteBits (R68, R140). -/
def emitElement (e : Element) (s : State) : State :=
  writeBits e.payload e.bucket.payloadBits (writeBits e.bucket.headerCode e.bucket.headerBits s)

/-! ### The reader -/

/-- The end of ReadBit (R111): the bit at index `8 - r_cnt`, consumed. -/
def consumeBit (s : State) : Bool × State :=
  (s.rBuf.getLsbD (8 - s.rCnt.toNat), { s with rCnt := s.rCnt - 1 })

/-- `ReadBit()` (R111): refill from the source when the buffer is empty; an exhausted source gives 0 and changes
nothing (R114). -/
def readBit (s : State) : Bool × State :=
  if s.rCnt = 0 then
    match srcPop s with
    | (some b, t) => consumeBit { t with rBuf := b, rCnt := 8 }
    | (none, _) => (false, s)
  else consumeBit s

/-- One turn of RBITS's loop: `acc <- acc | (bit << i)` (R110). -/
def readTurn (st : Value × State) (i : Nat) : Value × State :=
  let (bit, t) := readBit st.2
  (st.1 ||| ((if bit then (1 : Value) else 0) <<< i), t)

/-- `ReadBits(k)`, the body of RBITS (R110): `min(k, 32)` bits, the first at position 0. -/
def readBits (k : Nat) (s : State) : Value × State :=
  (List.range (clampCount k)).foldl readTurn (0, s)

/-- The body of RINIT (R115). -/
def initReader (s : State) : State := { s with rCnt := 0, rBuf := 0 }

/-- Read the payload of an element whose header named the bucket (R141). -/
def fetchPayload (b : Bucket) (s : State) : Element × State :=
  let (p, t) := readBits b.payloadBits s
  (⟨b, p⟩, t)

/-- Fetch one element of a scheme from the stream, header then payload, as DEC.A (R143), DEC.B (R145) and DEC.C (R147)
read it. -/
def fetchElement (sch : Scheme) (s : State) : Element × State :=
  match sch with
  | .a =>
    let (h, t) := readBits 1 s
    if h = 1 then fetchPayload .a16 t else fetchPayload .a28 t
  | .b =>
    let (h1, t) := readBits 1 s
    if h1 = 1 then fetchPayload .b13 t
    else
      let (h2, u) := readBits 1 t
      if h2 = 1 then fetchPayload .b16 u else fetchPayload .b32 u
  | .c =>
    let (h, t) := readBits 5 s
    fetchPayload (.c (h.setWidth 5)) t

/-! ### Completing a command -/

/-- A command completes: the result, if it has one, goes to the host (R65, R206). -/
def complete (r : Option Value) (s : State) : Host.Outcome State Fault Refusal :=
  .next { s with result := r }

/-- A command of the writer runs in a state the spec gives a meaning, and is refused in any other (R38). -/
def withWriter (s : State) (run : Host.Outcome State Fault Refusal) : Host.Outcome State Fault Refusal :=
  if s.WriterInv then run else .refused .writerOutsideInvariant

/-- A command of the reader runs in a state the spec gives a meaning, and is refused in any other (R38). -/
def withReader (s : State) (run : Host.Outcome State Fault Refusal) : Host.Outcome State Fault Refusal :=
  if s.ReaderInv then run else .refused .readerOutsideInvariant

/-- Encode one value into the bucket chosen for it: emit the element and return its length (R140, R152). -/
def encodeInto (b : Bucket) (v : Value) (s : State) : Host.Outcome State Fault Refusal :=
  withWriter s (complete (some (BitVec.ofNat 32 b.totalBits)) (emitElement ⟨b, v⟩ s))

/-- Execute an element that has been fetched: its payload is the value (R141). The payload field has the bucket's
width, so only that many low bits of the operand count (R148). -/
def deliverElement (e : Element) (s : State) : Host.Outcome State Fault Refusal :=
  complete (some (BitVec.ofNat 32 (e.payload.toNat % 2 ^ e.bucket.payloadBits))) s

/-- Decode one value: fetch an element of the scheme and execute it (R141). -/
def decodeFrom (sch : Scheme) (s : State) : Host.Outcome State Fault Refusal :=
  withReader s (deliverElement (fetchElement sch s).1 (fetchElement sch s).2)

end Sys2Proof.Machine
end

