-- ==== Sys2Proof/Machine/Codec.lean ====
section
/-!
DEFINITION. The commands of the variable-width_codec_engine VCE, one element at a time
(spec/43_codec_elements.md).
-/
namespace Sys2Proof.Machine

/-- ENC.A value (R142). -/
def execEncA (value : Value) (s : State) : Host.Outcome State Fault Refusal :=
  encodeInto (selectA value) value s

/-- ENC.B value (R144). -/
def execEncB (value : Value) (s : State) : Host.Outcome State Fault Refusal :=
  encodeInto (selectB value) value s

/-- ENC.C value (R146). -/
def execEncC (value : Value) (s : State) : Host.Outcome State Fault Refusal :=
  encodeInto (selectC value) value s

/-- DEC.A (R143). -/
def execDecA (s : State) : Host.Outcome State Fault Refusal := decodeFrom .a s

/-- DEC.B (R145). -/
def execDecB (s : State) : Host.Outcome State Fault Refusal := decodeFrom .b s

/-- DEC.C (R147). -/
def execDecC (s : State) : Host.Outcome State Fault Refusal := decodeFrom .c s

end Sys2Proof.Machine
end

