-- ==== Sys2Proof/Machine/Elements.lean ====
section
/-!
DEFINITION. The packed-stream elements (spec/30_encoding.md R68 to R75), executed by the variable-width_codec_engine once
a DEC command has fetched them from the stream: the payload goes to the host as the decoded value
(spec/43_codec_elements.md R141, R143, R145, R147). No canonicity check is made (R75). What the element's bits do to
the reader and the source is the fetch (`fetchElement`). That an element row of the opcode table is an instruction in
this sense is DEDUCED, safe (notes/assumptions/3.md).
-/
namespace Sys2Proof.Machine

/-- ELEM.A16 (R69). -/
def execElemA16 (payload : Value) (s : State) : Host.Outcome State Fault Refusal :=
  deliverElement ⟨.a16, payload⟩ s

/-- ELEM.A28 (R69). -/
def execElemA28 (payload : Value) (s : State) : Host.Outcome State Fault Refusal :=
  deliverElement ⟨.a28, payload⟩ s

/-- ELEM.B13 (R70). -/
def execElemB13 (payload : Value) (s : State) : Host.Outcome State Fault Refusal :=
  deliverElement ⟨.b13, payload⟩ s

/-- ELEM.B16 (R70). -/
def execElemB16 (payload : Value) (s : State) : Host.Outcome State Fault Refusal :=
  deliverElement ⟨.b16, payload⟩ s

/-- ELEM.B32 (R70). -/
def execElemB32 (payload : Value) (s : State) : Host.Outcome State Fault Refusal :=
  deliverElement ⟨.b32, payload⟩ s

/-- ELEM.C1 (R71). -/
def execElemC1 (payload : Value) (s : State) : Host.Outcome State Fault Refusal :=
  deliverElement ⟨.c 1, payload⟩ s

/-- ELEM.C2 (R71). -/
def execElemC2 (payload : Value) (s : State) : Host.Outcome State Fault Refusal :=
  deliverElement ⟨.c 2, payload⟩ s

/-- ELEM.C3 (R71). -/
def execElemC3 (payload : Value) (s : State) : Host.Outcome State Fault Refusal :=
  deliverElement ⟨.c 3, payload⟩ s

/-- ELEM.C4 (R71). -/
def execElemC4 (payload : Value) (s : State) : Host.Outcome State Fault Refusal :=
  deliverElement ⟨.c 4, payload⟩ s

/-- ELEM.C5 (R71). -/
def execElemC5 (payload : Value) (s : State) : Host.Outcome State Fault Refusal :=
  deliverElement ⟨.c 5, payload⟩ s

/-- ELEM.C6 (R71). -/
def execElemC6 (payload : Value) (s : State) : Host.Outcome State Fault Refusal :=
  deliverElement ⟨.c 6, payload⟩ s

/-- ELEM.C7 (R71). -/
def execElemC7 (payload : Value) (s : State) : Host.Outcome State Fault Refusal :=
  deliverElement ⟨.c 7, payload⟩ s

/-- ELEM.C8 (R71). -/
def execElemC8 (payload : Value) (s : State) : Host.Outcome State Fault Refusal :=
  deliverElement ⟨.c 8, payload⟩ s

/-- ELEM.C9 (R71). -/
def execElemC9 (payload : Value) (s : State) : Host.Outcome State Fault Refusal :=
  deliverElement ⟨.c 9, payload⟩ s

/-- ELEM.C10 (R71). -/
def execElemC10 (payload : Value) (s : State) : Host.Outcome State Fault Refusal :=
  deliverElement ⟨.c 10, payload⟩ s

/-- ELEM.C11 (R71). -/
def execElemC11 (payload : Value) (s : State) : Host.Outcome State Fault Refusal :=
  deliverElement ⟨.c 11, payload⟩ s

/-- ELEM.C12 (R71). -/
def execElemC12 (payload : Value) (s : State) : Host.Outcome State Fault Refusal :=
  deliverElement ⟨.c 12, payload⟩ s

/-- ELEM.C13 (R71). -/
def execElemC13 (payload : Value) (s : State) : Host.Outcome State Fault Refusal :=
  deliverElement ⟨.c 13, payload⟩ s

/-- ELEM.C14 (R71). -/
def execElemC14 (payload : Value) (s : State) : Host.Outcome State Fault Refusal :=
  deliverElement ⟨.c 14, payload⟩ s

/-- ELEM.C15 (R71). -/
def execElemC15 (payload : Value) (s : State) : Host.Outcome State Fault Refusal :=
  deliverElement ⟨.c 15, payload⟩ s

/-- ELEM.C16 (R71). -/
def execElemC16 (payload : Value) (s : State) : Host.Outcome State Fault Refusal :=
  deliverElement ⟨.c 16, payload⟩ s

/-- ELEM.C17 (R71). -/
def execElemC17 (payload : Value) (s : State) : Host.Outcome State Fault Refusal :=
  deliverElement ⟨.c 17, payload⟩ s

/-- ELEM.C18 (R71). -/
def execElemC18 (payload : Value) (s : State) : Host.Outcome State Fault Refusal :=
  deliverElement ⟨.c 18, payload⟩ s

/-- ELEM.C19 (R71). -/
def execElemC19 (payload : Value) (s : State) : Host.Outcome State Fault Refusal :=
  deliverElement ⟨.c 19, payload⟩ s

/-- ELEM.C20 (R71). -/
def execElemC20 (payload : Value) (s : State) : Host.Outcome State Fault Refusal :=
  deliverElement ⟨.c 20, payload⟩ s

/-- ELEM.C21 (R71). -/
def execElemC21 (payload : Value) (s : State) : Host.Outcome State Fault Refusal :=
  deliverElement ⟨.c 21, payload⟩ s

/-- ELEM.C22 (R71). -/
def execElemC22 (payload : Value) (s : State) : Host.Outcome State Fault Refusal :=
  deliverElement ⟨.c 22, payload⟩ s

/-- ELEM.C23 (R71). -/
def execElemC23 (payload : Value) (s : State) : Host.Outcome State Fault Refusal :=
  deliverElement ⟨.c 23, payload⟩ s

/-- ELEM.C24 (R71). -/
def execElemC24 (payload : Value) (s : State) : Host.Outcome State Fault Refusal :=
  deliverElement ⟨.c 24, payload⟩ s

/-- ELEM.C25 (R71). -/
def execElemC25 (payload : Value) (s : State) : Host.Outcome State Fault Refusal :=
  deliverElement ⟨.c 25, payload⟩ s

/-- ELEM.C26 (R71). -/
def execElemC26 (payload : Value) (s : State) : Host.Outcome State Fault Refusal :=
  deliverElement ⟨.c 26, payload⟩ s

/-- ELEM.C27 (R71). -/
def execElemC27 (payload : Value) (s : State) : Host.Outcome State Fault Refusal :=
  deliverElement ⟨.c 27, payload⟩ s

/-- ELEM.C28 (R71). -/
def execElemC28 (payload : Value) (s : State) : Host.Outcome State Fault Refusal :=
  deliverElement ⟨.c 28, payload⟩ s

/-- ELEM.C29 (R71). -/
def execElemC29 (payload : Value) (s : State) : Host.Outcome State Fault Refusal :=
  deliverElement ⟨.c 29, payload⟩ s

/-- ELEM.C30 (R71). -/
def execElemC30 (payload : Value) (s : State) : Host.Outcome State Fault Refusal :=
  deliverElement ⟨.c 30, payload⟩ s

/-- ELEM.C31 (R71). -/
def execElemC31 (payload : Value) (s : State) : Host.Outcome State Fault Refusal :=
  deliverElement ⟨.c 31, payload⟩ s

/-- ELEM.C32 (R71). -/
def execElemC32 (payload : Value) (s : State) : Host.Outcome State Fault Refusal :=
  deliverElement ⟨.c 0, payload⟩ s

end Sys2Proof.Machine
end

