-- ==== Sys2Proof/Machine/Reader.lean ====
section
/-!
DEFINITION. The commands of the bit_stream_reader BSR (spec/41_bit_stream_reader.md).
-/
namespace Sys2Proof.Machine

/-- RBITS n (R110, R112 to R114): the result is the value read. -/
def execRbits (n : Count) (s : State) : Host.Outcome State Fault Refusal :=
  withReader s (complete (some (readBits n.toNat s).1) (readBits n.toNat s).2)

/-- RINIT (R115): no result. It reads no register, so it has its effect in every state. -/
def execRinit (s : State) : Host.Outcome State Fault Refusal :=
  complete none (initReader s)

end Sys2Proof.Machine
end

