-- ==== Sys2Proof/Machine/Width.lean ====
section
/-!
DEFINITION. The command of the bit_width_calculator BWC (spec/42_bit_width_calculator.md).
-/
namespace Sys2Proof.Machine

/-- BWIDTH value (R130, R131): the result is the width; no register and no stream is read or written. -/
def execBwidth (value : Value) (s : State) : Host.Outcome State Fault Refusal :=
  complete (some (BitVec.ofNat 32 (bitWidth value))) s

end Sys2Proof.Machine
end

