-- ==== Sys2Proof/Machine/Writer.lean ====
section
/-!
DEFINITION. The commands of the bit_stream_writer BSW (spec/40_bit_stream_writer.md).
-/
namespace Sys2Proof.Machine

/-- WBITS value, n (R90, R92 to R94): the result is the clamped count. -/
def execWbits (value : Value) (n : Count) (s : State) : Host.Outcome State Fault Refusal :=
  withWriter s (complete (some (BitVec.ofNat 32 (clampCount n.toNat))) (writeBits value n.toNat s))

/-- WFLUSH (R91, R96): no result. -/
def execWflush (s : State) : Host.Outcome State Fault Refusal :=
  withWriter s (complete none (flushWriter s))

end Sys2Proof.Machine
end

