-- ==== Sys2Proof/Machine/Dispatch.lean ====
section
/-!
DEFINITION. Dispatch: one arm per constructor of Instr, each one call of that instruction's meaning.
-/
namespace Sys2Proof.Machine

def exec (i : Instr) (s : State) : Host.Outcome State Fault Refusal :=
  match i with
  | .wbits value n => Sys2Proof.Machine.execWbits value n s
  | .wflush => Sys2Proof.Machine.execWflush s
  | .rbits n => Sys2Proof.Machine.execRbits n s
  | .rinit => Sys2Proof.Machine.execRinit s
  | .bwidth value => Sys2Proof.Machine.execBwidth value s
  | .encA value => Sys2Proof.Machine.execEncA value s
  | .encB value => Sys2Proof.Machine.execEncB value s
  | .encC value => Sys2Proof.Machine.execEncC value s
  | .decA => Sys2Proof.Machine.execDecA s
  | .decB => Sys2Proof.Machine.execDecB s
  | .decC => Sys2Proof.Machine.execDecC s
  | .elemA16 payload => Sys2Proof.Machine.execElemA16 payload s
  | .elemA28 payload => Sys2Proof.Machine.execElemA28 payload s
  | .elemB13 payload => Sys2Proof.Machine.execElemB13 payload s
  | .elemB16 payload => Sys2Proof.Machine.execElemB16 payload s
  | .elemB32 payload => Sys2Proof.Machine.execElemB32 payload s
  | .elemC1 payload => Sys2Proof.Machine.execElemC1 payload s
  | .elemC2 payload => Sys2Proof.Machine.execElemC2 payload s
  | .elemC3 payload => Sys2Proof.Machine.execElemC3 payload s
  | .elemC4 payload => Sys2Proof.Machine.execElemC4 payload s
  | .elemC5 payload => Sys2Proof.Machine.execElemC5 payload s
  | .elemC6 payload => Sys2Proof.Machine.execElemC6 payload s
  | .elemC7 payload => Sys2Proof.Machine.execElemC7 payload s
  | .elemC8 payload => Sys2Proof.Machine.execElemC8 payload s
  | .elemC9 payload => Sys2Proof.Machine.execElemC9 payload s
  | .elemC10 payload => Sys2Proof.Machine.execElemC10 payload s
  | .elemC11 payload => Sys2Proof.Machine.execElemC11 payload s
  | .elemC12 payload => Sys2Proof.Machine.execElemC12 payload s
  | .elemC13 payload => Sys2Proof.Machine.execElemC13 payload s
  | .elemC14 payload => Sys2Proof.Machine.execElemC14 payload s
  | .elemC15 payload => Sys2Proof.Machine.execElemC15 payload s
  | .elemC16 payload => Sys2Proof.Machine.execElemC16 payload s
  | .elemC17 payload => Sys2Proof.Machine.execElemC17 payload s
  | .elemC18 payload => Sys2Proof.Machine.execElemC18 payload s
  | .elemC19 payload => Sys2Proof.Machine.execElemC19 payload s
  | .elemC20 payload => Sys2Proof.Machine.execElemC20 payload s
  | .elemC21 payload => Sys2Proof.Machine.execElemC21 payload s
  | .elemC22 payload => Sys2Proof.Machine.execElemC22 payload s
  | .elemC23 payload => Sys2Proof.Machine.execElemC23 payload s
  | .elemC24 payload => Sys2Proof.Machine.execElemC24 payload s
  | .elemC25 payload => Sys2Proof.Machine.execElemC25 payload s
  | .elemC26 payload => Sys2Proof.Machine.execElemC26 payload s
  | .elemC27 payload => Sys2Proof.Machine.execElemC27 payload s
  | .elemC28 payload => Sys2Proof.Machine.execElemC28 payload s
  | .elemC29 payload => Sys2Proof.Machine.execElemC29 payload s
  | .elemC30 payload => Sys2Proof.Machine.execElemC30 payload s
  | .elemC31 payload => Sys2Proof.Machine.execElemC31 payload s
  | .elemC32 payload => Sys2Proof.Machine.execElemC32 payload s

end Sys2Proof.Machine
end

