-- ==== Sys2Proof/Machine/HostPort.lean ====
section
/-!
DEFINITION. The command port: the host's actions (spec/60_exceptions.md R208), fetching the next one, and what stands on
the port for an instruction given as a code.
-/
namespace Sys2Proof.Machine

/-! ### The host's actions other than ISSUE -/

/-- RESET: the four registers at their reset values; the sink and the source are not touched (R220, R221). -/
def resetRegisters (s : State) : State := { s with wBuf := 0, wCnt := 0, rBuf := 0, rCnt := 0 }

/-- CLEAR-SINK: `sink <- []` (R208). -/
def clearSink (s : State) : State := { s with sink := [] }

/-- LOAD-SOURCE: `src <- bytes` (R208). -/
def loadSource (bytes : List Byte) (s : State) : State := { s with src := bytes }

/-- APPEND-SOURCE: `src <- src ++ bytes` (R208, R59). -/
def appendSource (bytes : List Byte) (s : State) : State := { s with src := s.src ++ bytes }

/-- REWIND: the source becomes the octets of the sink from the first one (R208, R57). -/
def rewindSource (s : State) : State := { s with src := s.sink }

/-! ### Fetching the next action -/

/-- What the port holds next. -/
inductive NextAction where
  /-- Nothing: the core waits (R204, R234). -/
  | wait
  /-- A command, decoded, and the state in which it runs. -/
  | command (d : Decoded) (s : State)
  /-- An action of the host that is no command, and the state it leaves. -/
  | done (s : State)
  deriving DecidableEq, Repr

/-- Take the next action off the port (R208). READ-SINK only observes. -/
def nextAction (s : State) : NextAction :=
  match s.port with
  | [] => .wait
  | .issue w :: rest => .command (decodeCommand w) { s with port := rest }
  | .readSink :: rest => .done { s with port := rest }
  | .clearSink :: rest => .done (clearSink { s with port := rest })
  | .loadSource bytes :: rest => .done (loadSource bytes { s with port := rest })
  | .appendSource bytes :: rest => .done (appendSource bytes { s with port := rest })
  | .rewind :: rest => .done (rewindSource { s with port := rest })
  | .reset :: rest => .done (resetRegisters { s with port := rest })

/-! ### Placing an instruction -/

/-- The DEC command of a scheme (R63). -/
def decCommand : Scheme → Instr
  | .a => .decA
  | .b => .decB
  | .c => .decC

/-- The ENC command of a scheme (R63). -/
def encCommand : Scheme → Value → Instr
  | .a, v => .encA v
  | .b, v => .encB v
  | .c, v => .encC v

/-- The command word of a command; 0, a reserved word, for an element, which has no command word. -/
def commandWord (i : Instr) : CmdWord :=
  match encode i with
  | .word w => w
  | .element _ _ => 0

/-- An instruction given as a code, placed so that it is the next one the machine fetches and runs: a command word at the
head of the port; an element at the head of the source, with the reader empty, and the DEC command of its scheme on the
port. DESIGN CHOICE, safe (notes/assumptions/4.md). -/
def placeCode (c : Code) (s : State) : State :=
  match c with
  | .word w => { s with port := .issue w :: s.port }
  | .element sch bits =>
    { s with rBuf := 0, rCnt := 0, src := packOctets bits ++ s.src
             port := .issue (commandWord (decCommand sch)) :: s.port }

/-- The code of an opcode-table word, placed; a word that is no row's is issued as it is, for the decoder to refuse. -/
def placeTableWord (nbits w : Nat) (s : State) : State :=
  match tableCode? nbits w with
  | some c => placeCode c s
  | none => placeCode (.word (BitVec.ofNat 42 w)) s

end Sys2Proof.Machine
end

