-- ==== Sys2Proof/Machine/Step.lean ====
section
/-!
DEFINITION. One step: the host's next action (spec/60_exceptions.md R208). A command is one step
(spec/70_reset_and_hazards.md R233), atomic (spec/00_scope.md R14). With no action pending the core waits: it never
starts a command on its own (R204) and is always ready for another (R234).
-/
namespace Sys2Proof.Machine

/-- One step of the machine. -/
def step (s : State) : Host.Outcome State Fault Refusal :=
  match nextAction s with
  | .wait => .next s
  | .done t => .next t
  | .command (.instr i) t => exec i t
  | .command (.reserved op) _ => .refused (.reservedOpcode op)

/-- The state with an opcode-table word placed where the next step fetches. -/
def State.withFetchWord (s : State) (nbits w : Nat) : State := placeTableWord nbits w s

end Sys2Proof.Machine
end

