-- ==== Sys2Proof/Machine/Session.lean ====
section
/-!
DEFINITION. Sequences of commands: the pseudo-instructions ENCODE.s and DECODE.s (spec/30_encoding.md R67;
spec/44_codec_sessions.md R180, R181), the run of a sequence with the results it returns to the host, and the host's
port for it.
-/
namespace Sys2Proof.Machine

/-- The two families of pseudo-instruction (R67). They are no opcodes and have no command word. -/
inductive Pseudo where
  /-- `ENCODE.s v1, ..., vk` (R180). -/
  | encode (sch : Scheme) (values : List Value)
  /-- `DECODE.s k` (R181). -/
  | decode (sch : Scheme) (count : Nat)
  deriving DecidableEq, Repr

/-- The commands a pseudo-instruction stands for (R67, R180, R181). -/
def Pseudo.expand : Pseudo → List Instr
  | .encode sch values => values.map (encCommand sch) ++ [.wflush]
  | .decode sch count => .rinit :: List.replicate count (decCommand sch)

/-- Run instructions in order, collecting the results they return, first one first; the first stop ends the run. -/
def runCommands : List Instr → State → Host.Outcome (State × List Value) Fault Refusal
  | [], s => .next (s, [])
  | i :: rest, s =>
    match exec i s with
    | .next t =>
      match runCommands rest t with
      | .next (u, results) => .next (u, t.result.toList ++ results)
      | .fault f => .fault f
      | .refused r => .refused r
    | .fault f => .fault f
    | .refused r => .refused r

/-- The host's list of ISSUE actions for a list of commands (R30, R208). -/
def issueAll (commands : List Instr) : List HostAction :=
  commands.map fun i => .issue (commandWord i)

end Sys2Proof.Machine
end

