-- ==== Sys2Proof/Machine/Assembler.lean ====
section
/-!
DEFINITION. The assembler syntax of spec/30_encoding.md R66 and R67: one line of text to the commands it stands for.
A line is `MNEMONIC operands`, operands separated by commas in the order `value, n`; numbers are decimal, or
hexadecimal with `0x`; `;` starts a comment. A line that is no command, or whose operand is out of range, assembles to
nothing. What R66 leaves open of the text is a DESIGN CHOICE, safe (notes/assumptions/9.md).
-/
namespace Sys2Proof.Machine

/-- A text without its leading blanks. -/
def dropBlanks : List Char → List Char
  | [] => []
  | c :: cs => if c = ' ' then dropBlanks cs else c :: cs

/-- A text without its blanks at either end. -/
def trimBlanks (cs : List Char) : List Char := (dropBlanks (dropBlanks cs).reverse).reverse

/-- The parts of a text between its commas. -/
def splitCommas : List Char → List (List Char)
  | [] => [[]]
  | c :: cs =>
    match splitCommas cs with
    | [] => [[c]]
    | part :: parts => if c = ',' then [] :: part :: parts else (c :: part) :: parts

/-- The value of a digit in a base up to 16. -/
def digitValue (base : Nat) (c : Char) : Option Nat :=
  let n := c.toNat
  let d :=
    if 48 ≤ n ∧ n ≤ 57 then some (n - 48)
    else if 65 ≤ n ∧ n ≤ 70 then some (n - 55)
    else if 97 ≤ n ∧ n ≤ 102 then some (n - 87)
    else none
  d.filter (· < base)

/-- The number a string of digits continues from `acc`. -/
def digitsFrom (base : Nat) : Nat → List Char → Option Nat
  | acc, [] => some acc
  | acc, c :: cs =>
    match digitValue base c with
    | some d => digitsFrom base (base * acc + d) cs
    | none => none

/-- A decimal number, or a hexadecimal one with `0x`. -/
def parseNumber : List Char → Option Nat
  | [] => none
  | ['0', 'x'] => none
  | '0' :: 'x' :: digits => digitsFrom 16 0 digits
  | digits => digitsFrom 10 0 digits

/-- All the operands of a line; none if one of them is no number. -/
def parseOperands (text : List Char) : Option (List Nat) :=
  if trimBlanks text = [] then some []
  else (splitCommas text).mapM fun part => parseNumber (trimBlanks part)

/-- A value operand, 0..0xFFFFFFFF. -/
def valueOperand (v : Nat) : Option Value := if v < 2 ^ 32 then some (BitVec.ofNat 32 v) else none

/-- A count operand, 0..63. -/
def countOperand (n : Nat) : Option Count := if n < 64 then some (BitVec.ofNat 6 n) else none

/-- The scheme a mnemonic ends in. -/
def schemeLetter (c : Char) : Option Scheme :=
  if c = 'A' then some .a else if c = 'B' then some .b else if c = 'C' then some .c else none

/-- A mnemonic that ends in a scheme letter, with its operands. -/
def assembleSchemed (stem : String) (sch : Scheme) (operands : List Nat) : Option (List Instr) :=
  if stem = "ENC." then
    match operands with
    | [v] => (valueOperand v).map fun v => [encCommand sch v]
    | _ => none
  else if stem = "DEC." then
    match operands with
    | [] => some [decCommand sch]
    | _ => none
  else if stem = "ENCODE." then
    (operands.mapM valueOperand).map fun vs => (Pseudo.encode sch vs).expand
  else if stem = "DECODE." then
    match operands with
    | [k] => some (Pseudo.decode sch k).expand
    | _ => none
  else none

/-- A mnemonic with its operands. -/
def assembleWords (mnemonic : List Char) (operands : List Nat) : Option (List Instr) :=
  let name := String.ofList mnemonic
  if name = "WBITS" then
    match operands with
    | [v, n] => (valueOperand v).bind fun v => (countOperand n).map fun n => [.wbits v n]
    | _ => none
  else if name = "WFLUSH" then if operands = [] then some [.wflush] else none
  else if name = "RBITS" then
    match operands with
    | [n] => (countOperand n).map fun n => [.rbits n]
    | _ => none
  else if name = "RINIT" then if operands = [] then some [.rinit] else none
  else if name = "BWIDTH" then
    match operands with
    | [v] => (valueOperand v).map fun v => [.bwidth v]
    | _ => none
  else
    match mnemonic.reverse with
    | [] => none
    | last :: stem =>
      (schemeLetter last).bind fun sch => assembleSchemed (String.ofList stem.reverse) sch operands

/-- One line of assembler text (R66): the commands it stands for, none if it is no legal line. A line that holds only a
comment stands for no command. -/
def assembleLine (line : String) : Option (List Instr) :=
  let text := trimBlanks (line.toList.takeWhile (· ≠ ';'))
  if text = [] then some []
  else
    (parseOperands (text.dropWhile (· ≠ ' '))).bind fun operands =>
      assembleWords (text.takeWhile (· ≠ ' ')) operands

end Sys2Proof.Machine
end

