-- ==== Sys2Proof/Safety.lean ====
section
/-!
DEFINITION. What counts as a safe state, and the two views in which the laws are stated: the stream of bits the writer
has written, and the stream of bits the reader has still to deliver.
-/
namespace Sys2Proof.Machine

/-- The port holds no reserved opcode: R203 says that this is the only way for a host to step outside the specified
behaviour. -/
def portLegal : List HostAction → Bool
  | [] => true
  | .issue w :: rest =>
    (match decodeCommand w with
      | .instr _ => true
      | .reserved _ => false) && portLegal rest
  | .readSink :: rest => portLegal rest
  | .clearSink :: rest => portLegal rest
  | .loadSource _ :: rest => portLegal rest
  | .appendSource _ :: rest => portLegal rest
  | .rewind :: rest => portLegal rest
  | .reset :: rest => portLegal rest

/-- A safe state: the invariants of R23 and R26 hold and every command still to come is legal. -/
abbrev State.Safe (s : State) : Prop := s.Inv ∧ portLegal s.port = true

/-- The bits written and not yet emitted: bit `j` of `w_buf` for `j < w_cnt` (R21). -/
def State.pendingBits (s : State) : List Bool := (List.range s.wCnt.toNat).map s.wBuf.getLsbD

/-- The written stream: the bits of the sink's octets, then the pending ones, in order of arrival (R45). -/
def State.written (s : State) : List Bool := streamBits s.sink ++ s.pendingBits

/-- The unconsumed bits of `r_buf`: positions `8 - r_cnt` to 7, in that order (R24, R46). -/
def State.bufferedBits (s : State) : List Bool := (byteBits s.rBuf).drop (8 - s.rCnt.toNat)

/-- The unread stream: the reader's unconsumed bits, then the bits of the source (R111). -/
def State.unread (s : State) : List Bool := s.bufferedBits ++ streamBits s.src

/-! ### The terms of the laws about sequences -/

/-- `n' = min(n, 32)` of a count operand (R62). -/
def clamped (n : Count) : Nat := min n.toNat 32

/-- The WBITS commands for a list of fields. -/
def writesOf (fields : List (Value × Count)) : List Instr := fields.map fun f => .wbits f.1 f.2

/-- The RBITS commands with the counts of a list of fields. -/
def readsOf (fields : List (Value × Count)) : List Instr := fields.map fun f => .rbits f.2

/-- `T`, the sum of the clamped counts (R97 to R99). -/
def bitTotal : List (Value × Count) → Nat
  | [] => 0
  | f :: rest => clamped f.2 + bitTotal rest

/-- `Z` of the content law (R99): the fields laid end to end, the first lowest. -/
def fieldsNumber : List (Value × Count) → Nat
  | [] => 0
  | f :: rest => f.1.toNat % 2 ^ clamped f.2 + 2 ^ clamped f.2 * fieldsNumber rest

/-- The low `k` octets of a number, `(Z >> 8m) mod 256` for `m < k` (R95, R99). -/
def octetsOf (z k : Nat) : List Byte := (List.range k).map fun m => BitVec.ofNat 8 (z / 2 ^ (8 * m) % 256)

/-- The sum over `j` of `s_j * 2^(8j)` (R116). -/
def octetsNumber : List Byte → Nat
  | [] => 0
  | b :: rest => b.toNat + 2 ^ 8 * octetsNumber rest

/-- The bucket the ENC command of a scheme selects for a value (R142, R144, R146). -/
def selectFor : Scheme → Value → Bucket
  | .a => selectA
  | .b => selectB
  | .c => selectC

/-- What DEC.s returns for a value that ENC.s encoded (R151): scheme A keeps 28 bits, the others all. -/
def schemeValue : Scheme → Value → Value
  | .a, v => BitVec.ofNat 32 (v.toNat % 2 ^ 28)
  | .b, v => v
  | .c, v => v

/-- The sum of the ENC results of a session (R183). -/
def sessionBits (sch : Scheme) : List Value → Nat
  | [] => 0
  | v :: rest => (selectFor sch v).totalBits + sessionBits sch rest

/-- The header and the payload that a value's element is made of, as fields (R184). -/
def elementFields (sch : Scheme) (v : Value) : List (Value × Count) :=
  [((selectFor sch v).headerCode, BitVec.ofNat 6 (selectFor sch v).headerBits),
    (v, BitVec.ofNat 6 (selectFor sch v).payloadBits)]

/-- The commands of the writer: WBITS, WFLUSH and the ENC commands (R43). -/
def isWriterCommand : Instr → Bool
  | .wbits _ _ => true
  | .wflush => true
  | .rbits _ => false
  | .rinit => false
  | .bwidth _ => false
  | .encA _ => true
  | .encB _ => true
  | .encC _ => true
  | .decA => false
  | .decB => false
  | .decC => false
  | .elemA16 _ => false
  | .elemA28 _ => false
  | .elemB13 _ => false
  | .elemB16 _ => false
  | .elemB32 _ => false
  | .elemC1 _ => false
  | .elemC2 _ => false
  | .elemC3 _ => false
  | .elemC4 _ => false
  | .elemC5 _ => false
  | .elemC6 _ => false
  | .elemC7 _ => false
  | .elemC8 _ => false
  | .elemC9 _ => false
  | .elemC10 _ => false
  | .elemC11 _ => false
  | .elemC12 _ => false
  | .elemC13 _ => false
  | .elemC14 _ => false
  | .elemC15 _ => false
  | .elemC16 _ => false
  | .elemC17 _ => false
  | .elemC18 _ => false
  | .elemC19 _ => false
  | .elemC20 _ => false
  | .elemC21 _ => false
  | .elemC22 _ => false
  | .elemC23 _ => false
  | .elemC24 _ => false
  | .elemC25 _ => false
  | .elemC26 _ => false
  | .elemC27 _ => false
  | .elemC28 _ => false
  | .elemC29 _ => false
  | .elemC30 _ => false
  | .elemC31 _ => false
  | .elemC32 _ => false

/-- The commands of the reader: RBITS, RINIT and the DEC commands (R24, R43). -/
def isReaderCommand : Instr → Bool
  | .wbits _ _ => false
  | .wflush => false
  | .rbits _ => true
  | .rinit => true
  | .bwidth _ => false
  | .encA _ => false
  | .encB _ => false
  | .encC _ => false
  | .decA => true
  | .decB => true
  | .decC => true
  | .elemA16 _ => false
  | .elemA28 _ => false
  | .elemB13 _ => false
  | .elemB16 _ => false
  | .elemB32 _ => false
  | .elemC1 _ => false
  | .elemC2 _ => false
  | .elemC3 _ => false
  | .elemC4 _ => false
  | .elemC5 _ => false
  | .elemC6 _ => false
  | .elemC7 _ => false
  | .elemC8 _ => false
  | .elemC9 _ => false
  | .elemC10 _ => false
  | .elemC11 _ => false
  | .elemC12 _ => false
  | .elemC13 _ => false
  | .elemC14 _ => false
  | .elemC15 _ => false
  | .elemC16 _ => false
  | .elemC17 _ => false
  | .elemC18 _ => false
  | .elemC19 _ => false
  | .elemC20 _ => false
  | .elemC21 _ => false
  | .elemC22 _ => false
  | .elemC23 _ => false
  | .elemC24 _ => false
  | .elemC25 _ => false
  | .elemC26 _ => false
  | .elemC27 _ => false
  | .elemC28 _ => false
  | .elemC29 _ => false
  | .elemC30 _ => false
  | .elemC31 _ => false
  | .elemC32 _ => false

end Sys2Proof.Machine
end

