-- ==== Sys2Proof/Certificates/Slice0/Obligations.lean ====
section
/-!
DEFINITION. The statements about the machine, from the numbered rules of spec/.
-/
open Sys2Proof Sys2Proof.Machine

/-! ### Reset, the command port and the invariants -/

/-- R34, R220, R221: reset values, and what the RESET action does to the registers and the two streams. -/
def Obligations.ResetEmptiesTheFourRegisters : Prop :=
  (State.reset.wBuf = 0 ∧ State.reset.wCnt = 0 ∧ State.reset.rBuf = 0 ∧ State.reset.rCnt = 0) ∧
    ∀ (s : State) (rest : List HostAction), s.port = .reset :: rest →
      ∃ t, step s = .next t ∧ t.wBuf = 0 ∧ t.wCnt = 0 ∧ t.rBuf = 0 ∧ t.rCnt = 0 ∧ t.sink = s.sink ∧ t.src = s.src

/-- R222, first part: the invariants hold after reset. That no command, so no illegal one, is pending in `State.reset` is
the model's choice, notes/assumptions/1.md and 2.md (DESIGN CHOICE). -/
def Obligations.ResetMeetsTheInvariants : Prop :=
  State.reset.Safe ∧
    ∀ (s t : State) (rest : List HostAction), s.port = .reset :: rest → step s = .next t → t.Inv

/-- R23, R26: both invariants hold after reset and after every step, whatever the step; and what the writer's says of
the single bits. -/
def Obligations.EveryStepKeepsTheInvariants : Prop :=
  State.reset.Inv ∧
    (∀ s t : State, s.Inv → step s = .next t → t.Inv) ∧
      (∀ s : State, s.WriterInv → ∀ j, s.wCnt.toNat ≤ j → s.wBuf.getLsbD j = false) ∧
        ∀ s : State, s.WriterInv → s.wCnt = 0 → s.wBuf = 0

/-- Between commands the invariants hold and every command to come is legal; then the next step is not refused, and the
state it leaves is such a state again (R200, R203, R206). -/
def Obligations.LegalPortNeverStops : Prop :=
  ∀ s : State, s.Safe → ∃ t, step s = .next t ∧ t.Safe

/-- R208's table of host actions as this model steps through them, one a step, with the result port kept: the model's
choices notes/assumptions/2.md and 5.md. With none pending the core waits. -/
def Obligations.HostActionsTakeEffect : Prop :=
  ∀ (s : State) (rest : List HostAction) (bytes : List Byte),
    (s.port = [] → step s = .next s) ∧
      (s.port = .readSink :: rest → step s = .next { s with port := rest }) ∧
        (s.port = .clearSink :: rest → step s = .next { s with port := rest, sink := [] }) ∧
          (s.port = .loadSource bytes :: rest → step s = .next { s with port := rest, src := bytes }) ∧
            (s.port = .appendSource bytes :: rest → step s = .next { s with port := rest, src := s.src ++ bytes }) ∧
              (s.port = .rewind :: rest → step s = .next { s with port := rest, src := s.sink }) ∧
                (s.port = .reset :: rest →
                  step s = .next { s with port := rest, wBuf := 0, wCnt := 0, rBuf := 0, rCnt := 0 })

/-- A step whose next host action is ISSUE runs the decoded command in the state with that action taken off the port:
all that this model's step adds around exec (its choice, notes/assumptions/2.md). -/
def Obligations.StepRunsTheDecodedCommand : Prop :=
  ∀ (s : State) (w : CmdWord) (rest : List HostAction) (i : Instr),
    s.port = .issue w :: rest → decodeCommand w = .instr i → step s = exec i { s with port := rest }

/-- R64, R203: a word with a reserved opcode is refused; every other word decodes. That the refusal comes at the step that
issues the word and carries its opcode is the model's reading, notes/assumptions/8.md (DEDUCED). -/
def Obligations.ReservedOpcodesAreRefused : Prop :=
  ∀ (s : State) (w : CmdWord) (rest : List HostAction), s.port = .issue w :: rest →
    (opField w ∈ [0x0, 0x6, 0x7, 0xB, 0xF] → step s = .refused (.reservedOpcode (opField w))) ∧
      (opField w ∉ [0x0, 0x6, 0x7, 0xB, 0xF] → ∃ i, decodeCommand w = .instr i)

/-- R14, R30: the host's list of ISSUE actions for a list of commands runs, step by step, exactly the commands. The port is
the model's choice notes/assumptions/2.md. -/
def Obligations.PortRunsTheCommandsInOrder : Prop :=
  ∀ (commands : List Instr) (s u : State) (rest : List HostAction) (results : List Value),
    (∀ i ∈ commands, i.element? = none) →
      runCommands commands { s with port := rest } = .next (u, results) →
        Host.Core.run Sys2Proof.core commands.length { s with port := issueAll commands ++ rest } = .next u

/-- R65: every command that returns something returns one result, the others none. -/
def Obligations.CommandsReturnTheirResults : Prop :=
  ∀ (i : Instr) (s : State), s.Inv → i.element? = none →
    ∃ t, exec i s = .next t ∧ (t.result = none ↔ i = .wflush ∨ i = .rinit)

/-! ### Encodings -/

/-- Words written out from R60 and R63 decode to their commands, and stream bits from R69 to R71 to their elements. -/
def Obligations.SampleWordsDecode : Prop :=
  decodeCommand 0x04300000005 = .instr (.wbits 0x5 3) ∧
    decodeCommand 0x08000000000 = .instr .wflush ∧
      decodeCommand 0x0C900000000 = .instr (.rbits 9) ∧
        decodeCommand 0x10000000000 = .instr .rinit ∧
          decodeCommand 0x140FFFFFFFF = .instr (.bwidth 0xFFFFFFFF) ∧
            decodeCommand 0x200000000A1 = .instr (.encA 0xA1) ∧
              decodeCommand 0x34000000000 = .instr .decB ∧
                (decodeElement .b [true, true, false, true]).1 = ⟨.b13, 5⟩ ∧
                  (decodeElement .c [false, false, true, false, false, true, false, true, true]).1.toInstr = .elemC4 0xD

/-- R60, R63: the fields of a command word, the mask of the opcode map, and the command each opcode selects. -/
def Obligations.OpcodeMapSelectsTheCommand : Prop :=
  (∀ (op : BitVec 4) (n : Count) (v : Value),
      (cmdWord op n v).toNat = op.toNat * 2 ^ 38 + n.toNat * 2 ^ 32 + v.toNat ∧
        opField (cmdWord op n v) = op ∧ nField (cmdWord op n v) = n ∧ valueField (cmdWord op n v) = v) ∧
    (∀ (w : CmdWord) (op : BitVec 4), opMask = 0x3C000000000 ∧ (w &&& opMask = (op.setWidth 42) <<< 38 ↔ opField w = op)) ∧
      (∀ (op : BitVec 4) (n : Count) (v : Value), op ∈ [0x0, 0x6, 0x7, 0xB, 0xF] →
        decodeCommand (cmdWord op n v) = .reserved op) ∧
      ∀ (n : Count) (v : Value),
        decodeCommand (cmdWord 0x1 n v) = .instr (.wbits v n) ∧
          decodeCommand (cmdWord 0x2 n v) = .instr .wflush ∧
            decodeCommand (cmdWord 0x3 n v) = .instr (.rbits n) ∧
              decodeCommand (cmdWord 0x4 n v) = .instr .rinit ∧
                decodeCommand (cmdWord 0x5 n v) = .instr (.bwidth v) ∧
                  decodeCommand (cmdWord 0x8 n v) = .instr (.encA v) ∧
                    decodeCommand (cmdWord 0x9 n v) = .instr (.encB v) ∧
                      decodeCommand (cmdWord 0xA n v) = .instr (.encC v) ∧
                        decodeCommand (cmdWord 0xC n v) = .instr .decA ∧
                          decodeCommand (cmdWord 0xD n v) = .instr .decB ∧
                            decodeCommand (cmdWord 0xE n v) = .instr .decC

/-- R61: two words that agree in the fields their format uses decode alike, so the other fields have no effect. -/
def Obligations.UnusedFieldsAreIgnored : Prop :=
  ∀ w w' : CmdWord, opField w = opField w' →
    (opField w ∈ [0x2, 0x4, 0xC, 0xD, 0xE] → decodeCommand w = decodeCommand w') ∧
      (opField w = 0x3 → nField w = nField w' → decodeCommand w = decodeCommand w') ∧
        (opField w ∈ [0x5, 0x8, 0x9, 0xA] → valueField w = valueField w' → decodeCommand w = decodeCommand w') ∧
          (opField w = 0x1 → nField w = nField w' → valueField w = valueField w' → decodeCommand w = decodeCommand w')

/-- Decode and encode agree on every well-formed instruction: all eleven commands and all thirty-seven elements, every
operand at every value. -/
def Obligations.DecodeUndoesEncode : Prop :=
  ∀ i : Instr, i.WellFormed = true → decode (encode i) = .instr i

/-- R72, R68: in front of any stream, a decoder of the element's scheme recognises the element from its own bits and
stops right behind it. -/
def Obligations.ElementDecodesInFrontOfAnyStream : Prop :=
  ∀ (i : Instr) (e : Element) (rest : List Bool), i.element? = some e → i.WellFormed = true →
    decodeElement e.bucket.scheme (elementBits e ++ rest) = (e, rest) ∧ e.toInstr = i

/-- R74: every bit string decodes, in every scheme, to an element of that scheme whose bits are the string's own first
bits, with zeros for the missing ones. -/
def Obligations.EveryBitStringDecodes : Prop :=
  ∀ (sch : Scheme) (bits : List Bool),
    (decodeElement sch bits).1.bucket.scheme = sch ∧
      elementBits (decodeElement sch bits).1 ++ (decodeElement sch bits).2 =
        bits ++ List.replicate ((decodeElement sch bits).1.bucket.totalBits - bits.length) false

/-- R69, R70, R71: the stream pattern of every element, first stream bit first. -/
def Obligations.ElementPatterns : Prop :=
  ∀ p : Value,
    elementBits ⟨.a16, p⟩ = true :: lowBits 16 p ∧
      elementBits ⟨.a28, p⟩ = false :: lowBits 28 p ∧
        elementBits ⟨.b13, p⟩ = true :: lowBits 13 p ∧
          elementBits ⟨.b16, p⟩ = false :: true :: lowBits 16 p ∧
            elementBits ⟨.b32, p⟩ = false :: false :: lowBits 32 p ∧
              elementBits ⟨.c 0, p⟩ = List.replicate 5 false ++ lowBits 32 p ∧
                ∀ w : Nat, 1 ≤ w → w ≤ 31 →
                  elementBits ⟨.c (BitVec.ofNat 5 w), p⟩ = lowBits 5 (BitVec.ofNat 32 w) ++ lowBits w p

/-- R45: stream bit `8m + j` is bit `j` of octet `m`; and octets packed from a stream give its bits back, followed by the
zero padding. -/
def Obligations.StreamBitsStandInTheirOctets : Prop :=
  (∀ (l : List Byte) (m j : Nat), j < 8 → (streamBits l)[8 * m + j]? = l[m]?.map fun b => b.getLsbD j) ∧
    ∀ bits : List Bool,
      streamBits (packOctets bits) = bits ++ List.replicate (8 * ((bits.length + 7) / 8) - bits.length) false

/-- R66, R67: lines of the assembler text. -/
def Obligations.AssemblerLinesAssemble : Prop :=
  assembleLine "WBITS 0x5, 3" = some [.wbits 0x5 3] ∧
    assembleLine "WFLUSH ; close" = some [.wflush] ∧
      assembleLine "RBITS 63" = some [.rbits 63] ∧
        assembleLine "RBITS 64" = none ∧
          assembleLine "BWIDTH 0xFFFFFFFF" = some [.bwidth 0xFFFFFFFF] ∧
            assembleLine "BWIDTH 0x100000000" = none ∧
              assembleLine "ENCODE.B 0x1FFF, 0x2000" = some [.encB 0x1FFF, .encB 0x2000, .wflush] ∧
                assembleLine "DECODE.C 2" = some [.rinit, .decC, .decC]

/-! ### The writer -/

/-- R95: the closed form of WBITS. -/
def Obligations.WbitsClosedForm : Prop :=
  ∀ (s : State) (v : Value) (n : Count), s.WriterInv →
    let c := s.wCnt.toNat
    let n' := min n.toNat 32
    let z := s.wBuf.toNat + v.toNat % 2 ^ n' * 2 ^ c
    let q := (c + n') / 8
    z < 2 ^ (c + n') ∧ (n' = 32 → q = 4) ∧
      exec (.wbits v n) s =
        .next { s with
          wBuf := BitVec.ofNat 8 (z / 2 ^ (8 * q))
          wCnt := BitVec.ofNat 4 ((c + n') % 8)
          sink := s.sink ++ octetsOf z q
          result := some (BitVec.ofNat 32 n') } ∧
        z / 2 ^ (8 * q) < 2 ^ 8

/-- R44, R90: WBITS appends the low bits of its value to the written stream, bit 0 first, and returns their number. -/
def Obligations.WbitsAppendsItsFieldToTheStream : Prop :=
  ∀ (s : State) (v : Value) (n : Count), s.WriterInv →
    ∃ t, exec (.wbits v n) s = .next t ∧ t.written = s.written ++ lowBits (min n.toNat 32) v ∧
      t.result = some (BitVec.ofNat 32 (min n.toNat 32))

/-- R92, R112: any count above 32 behaves as 32, writing and reading; WBITS then returns 32. -/
def Obligations.CountsAboveThirtyTwoBehaveAsThirtyTwo : Prop :=
  ∀ (s : State) (v : Value) (n : Count), 32 < n.toNat →
    exec (.wbits v n) s = exec (.wbits v 32) s ∧
      (s.WriterInv → ∃ t, exec (.wbits v n) s = .next t ∧ t.result = some 32) ∧
        exec (.rbits n) s = exec (.rbits 32) s

/-- R93: a count of 0 writes nothing and returns 0. -/
def Obligations.WbitsOfNoBitsChangesNothing : Prop :=
  ∀ (s : State) (v : Value), s.WriterInv → exec (.wbits v 0) s = .next { s with result := some 0 }

/-- R94: bits of the value above the count have no effect of any kind. -/
def Obligations.WbitsIgnoresHighBits : Prop :=
  ∀ (s : State) (v v' : Value) (n : Count), v.toNat % 2 ^ min n.toNat 32 = v'.toNat % 2 ^ min n.toNat 32 →
    exec (.wbits v n) s = exec (.wbits v' n) s

/-- R91: WFLUSH emits the partial octet, if there is one, and empties the writer. -/
def Obligations.WflushEmitsThePartialOctet : Prop :=
  ∀ s : State, s.WriterInv →
    exec .wflush s =
      .next { s with
        wBuf := 0
        wCnt := 0
        sink := if s.wCnt = 0 then s.sink else s.sink ++ [s.wBuf]
        result := none }

/-- R96: WFLUSH on an empty writer emits nothing and leaves the state unchanged, and so does a second WFLUSH. -/
def Obligations.WflushIsIdempotent : Prop :=
  (∀ s : State, s.WriterInv → s.wCnt = 0 → exec .wflush s = .next { s with result := none }) ∧
    ∀ s t : State, exec .wflush s = .next t → exec .wflush t = .next t

/-- R97: octets visible before the flush. -/
def Obligations.OctetsVisibleBeforeTheFlush : Prop :=
  ∀ (s : State) (fields : List (Value × Count)), s.WriterInv → s.wCnt = 0 →
    ∃ t results pushed, runCommands (writesOf fields) s = .next (t, results) ∧
      t.sink = s.sink ++ pushed ∧ pushed.length = bitTotal fields / 8 ∧ t.wCnt.toNat = bitTotal fields % 8

/-- R98, R99: the size and the content of a flush-closed run of writes, and that it does not matter how the bits were
split into commands. -/
def Obligations.FlushedStreamSizeAndContent : Prop :=
  (∀ (s : State) (fields : List (Value × Count)), s.WriterInv → s.wCnt = 0 →
      ∃ t results, runCommands (writesOf fields ++ [.wflush]) s = .next (t, results) ∧
        t.sink = s.sink ++ octetsOf (fieldsNumber fields) ((bitTotal fields + 7) / 8) ∧
          t.wCnt = 0 ∧ t.wBuf = 0) ∧
    ∀ (s : State) (x y : Value) (a b : Count), s.WriterInv → a.toNat + b.toNat ≤ 32 →
      ∃ t u, exec (.wbits x a) s = .next t ∧ exec (.wbits y b) t = .next u ∧
        exec (.wbits (BitVec.ofNat 32 (x.toNat % 2 ^ a.toNat + y.toNat % 2 ^ b.toNat * 2 ^ a.toNat)) (a + b)) s =
          .next { u with result := some (BitVec.ofNat 32 (a.toNat + b.toNat)) }

/-- R102: what a writer command does to the registers, pushes and returns is a function of `w_buf`, `w_cnt` and its
operands alone; the sink is never read. -/
def Obligations.WriterDependsOnItsRegistersAlone : Prop :=
  ∀ (i : Instr) (s s' t : State), isWriterCommand i = true → s'.wBuf = s.wBuf → s'.wCnt = s.wCnt →
    exec i s = .next t →
      ∃ t' pushed, exec i s' = .next t' ∧ t.sink = s.sink ++ pushed ∧ t'.sink = s'.sink ++ pushed ∧
        t'.wBuf = t.wBuf ∧ t'.wCnt = t.wCnt ∧ t'.result = t.result

/-- The frame of WBITS, WFLUSH, ENC.A, ENC.B and ENC.C: the reader's registers, the source and the port are unchanged, and
the octets already in the sink stay as they are (R29, R43, R140). -/
def Obligations.WriterCommandsLeaveTheReaderAlone : Prop :=
  ∀ (i : Instr) (s t : State), isWriterCommand i = true → exec i s = .next t →
    t.rBuf = s.rBuf ∧ t.rCnt = s.rCnt ∧ t.src = s.src ∧ t.port = s.port ∧ ∃ pushed, t.sink = s.sink ++ pushed

/-- R38: registers outside the invariants have no meaning; a command that uses them is refused by name. -/
def Obligations.RegistersOutsideTheInvariantsAreRefused : Prop :=
  ∀ s : State,
    (¬ s.WriterInv → ∀ i, isWriterCommand i = true → exec i s = .refused .writerOutsideInvariant) ∧
      (¬ s.ReaderInv → ∀ i, isReaderCommand i = true → i ≠ .rinit → exec i s = .refused .readerOutsideInvariant)

/-! ### The reader -/

/-- R116: the closed form of RBITS. -/
def Obligations.RbitsClosedForm : Prop :=
  ∀ (s : State) (n : Count), s.ReaderInv →
    let c := s.rCnt.toNat
    let b := s.rBuf.toNat / 2 ^ (8 - c)
    let n' := min n.toNat 32
    let m := (n' - c + 7) / 8
    let k := min m s.src.length
    let taken := s.src.take k
    let total := b + octetsNumber taken * 2 ^ c
    let avail := c + 8 * k
    (n' ≤ c → exec (.rbits n) s =
        .next { s with rCnt := BitVec.ofNat 4 (c - n'), result := some (BitVec.ofNat 32 (b % 2 ^ n')) }) ∧
      (c < n' → k = m → exec (.rbits n) s =
          .next { s with
            rBuf := taken.getLastD s.rBuf
            rCnt := BitVec.ofNat 4 (avail - n')
            src := s.src.drop k
            result := some (BitVec.ofNat 32 (total % 2 ^ n')) }) ∧
        (c < n' → k < m → total < 2 ^ avail ∧ exec (.rbits n) s =
          .next { s with
            rBuf := taken.getLastD s.rBuf
            rCnt := 0
            src := []
            result := some (BitVec.ofNat 32 total) })

/-- R46, R110: RBITS returns the next bits of the unread stream, the first at position 0, and consumes them. -/
def Obligations.RbitsTakesItsFieldFromTheStream : Prop :=
  ∀ (s : State) (n : Count), s.ReaderInv →
    ∃ t, exec (.rbits n) s = .next t ∧
      t.result = some (BitVec.ofNat 32 (fieldOf (s.unread.take (min n.toNat 32)))) ∧
        t.unread = s.unread.drop (min n.toNat 32)

/-- R113: a count of 0 reads nothing, pulls nothing and returns 0. -/
def Obligations.RbitsOfNoBitsChangesNothing : Prop :=
  ∀ s : State, s.ReaderInv → exec (.rbits 0) s = .next { s with result := some 0 }

/-- R121, R59: a read that runs out of bits leaves the reader and the source empty; a later read of an extended source
delivers the new octets from their bit 0. -/
def Obligations.ExhaustionIsNotSticky : Prop :=
  ∀ (s : State) (n m : Count) (bytes : List Byte), s.ReaderInv → s.unread.length < min n.toNat 32 →
    ∃ t u, exec (.rbits n) s = .next t ∧ t.rCnt = 0 ∧ t.src = [] ∧
      exec (.rbits m) (appendSource bytes t) = .next u ∧
        u.result = some (BitVec.ofNat 32 (fieldOf ((streamBits bytes).take (min m.toNat 32))))

/-- R119: two reads return what one read of both counts would have returned, and leave the same state. -/
def Obligations.SplitReadsAgree : Prop :=
  ∀ (s : State) (a b : Count), s.ReaderInv → a.toNat + b.toNat ≤ 32 →
    ∃ t u x y, exec (.rbits a) s = .next t ∧ t.result = some x ∧ exec (.rbits b) t = .next u ∧ u.result = some y ∧
      exec (.rbits (a + b)) s = .next { u with result := some (BitVec.ofNat 32 (x.toNat + y.toNat * 2 ^ a.toNat)) }

/-- R117 for RBITS: the octets pulled by reads of `U` bits in all, from an empty reader, without exhaustion. -/
def Obligations.OctetsConsumedByReads : Prop :=
  ∀ (s : State) (fields : List (Value × Count)), s.rCnt = 0 → bitTotal fields ≤ 8 * s.src.length →
    ∃ t results, runCommands (readsOf fields) s = .next (t, results) ∧
      t.src = s.src.drop ((bitTotal fields + 7) / 8) ∧ t.rCnt.toNat = (8 - bitTotal fields % 8) % 8

/-- R118: the reader returns what the writer wrote, as long as both use the same counts in the same order. -/
def Obligations.ReadsInvertWrites : Prop :=
  ∀ (s r : State) (fields : List (Value × Count)) (more : List Byte), s.WriterInv → s.wCnt = 0 → r.rCnt = 0 →
    ∃ t written pushed, runCommands (writesOf fields ++ [.wflush]) s = .next (t, written) ∧
      t.sink = s.sink ++ pushed ∧
        (r.src = pushed ++ more →
          ∃ u, runCommands (readsOf fields) r =
            .next (u, fields.map fun f => BitVec.ofNat 32 (f.1.toNat % 2 ^ min f.2.toNat 32)))

/-- R115: RINIT discards the unconsumed bits, in every state. -/
def Obligations.RinitEmptiesTheReader : Prop :=
  ∀ s : State, exec .rinit s = .next { s with rBuf := 0, rCnt := 0, result := none }

/-- R122: what RBITS returns and does is a function of `r_buf`, `r_cnt`, `n` and the leading octets of the source alone;
it pulls at most `ceil(n'/8)` octets. -/
def Obligations.RbitsDependsOnItsRegistersAndLeadingOctets : Prop :=
  ∀ (s s' : State) (n : Count), s.ReaderInv → s'.rBuf = s.rBuf → s'.rCnt = s.rCnt →
    s'.src.take ((min n.toNat 32 + 7) / 8) = s.src.take ((min n.toNat 32 + 7) / 8) →
      ∃ t t' k, exec (.rbits n) s = .next t ∧ exec (.rbits n) s' = .next t' ∧ k ≤ (min n.toNat 32 + 7) / 8 ∧
        t.src = s.src.drop k ∧ t'.src = s'.src.drop k ∧
          t'.rBuf = t.rBuf ∧ t'.rCnt = t.rCnt ∧ t'.result = t.result

/-- The frame of RBITS, RINIT, DEC.A, DEC.B and DEC.C: the writer's registers, the sink and the port are unchanged, and the
source only loses octets from its front, none to RINIT (R29, R43, R115, R141). -/
def Obligations.ReaderCommandsLeaveTheWriterAlone : Prop :=
  ∀ (i : Instr) (s t : State), isReaderCommand i = true → exec i s = .next t →
    t.wBuf = s.wBuf ∧ t.wCnt = s.wCnt ∧ t.sink = s.sink ∧ t.port = s.port ∧
      (∃ k, t.src = s.src.drop k) ∧ (i = .rinit → t.src = s.src)

/-- R29, R210: a writer command and a reader command may be exchanged; only the result port shows which came last. -/
def Obligations.WriterAndReaderCommandsCommute : Prop :=
  ∀ (i j : Instr) (s : State), isWriterCommand i = true → isReaderCommand j = true → s.Inv →
    ∃ t u t' u', exec i s = .next t ∧ exec j t = .next u ∧ exec j s = .next t' ∧ exec i t' = .next u' ∧
      u.result = t'.result ∧ u'.result = t.result ∧ { u with result := none } = { u' with result := none }

/-- R27: whatever the step, short of CLEAR-SINK, the sink keeps its octets in their places and only grows at its end. -/
def Obligations.SinkOnlyGrows : Prop :=
  ∀ s t : State, step s = .next t → s.port.head? ≠ some .clearSink → ∃ pushed, t.sink = s.sink ++ pushed

/-! ### The width -/

/-- R130 to R132: BWIDTH returns the smallest width that holds its value, and 1 for the value 0; nothing but the result
changes, in every state. -/
def Obligations.BwidthReturnsTheSmallestWidth : Prop :=
  ∀ (s : State) (v : Value), ∃ w : Nat, exec (.bwidth v) s = .next { s with result := some (BitVec.ofNat 32 w) } ∧
    1 ≤ w ∧ w ≤ 32 ∧ v.toNat < 2 ^ w ∧ (v ≠ 0 → ∀ w' : Nat, v.toNat < 2 ^ w' → w ≤ w') ∧ (v = 0 → w = 1)

/-- R133: the width is `max(1, 32 - lzc)`, `lzc` the number of 0 bits from bit 31 down to the highest set bit. -/
def Obligations.WidthIsThirtyTwoLessLeadingZeros : Prop :=
  ∀ (v : Value) (lzc : Nat), lzc ≤ 32 → (∀ j, 32 - lzc ≤ j → j < 32 → v.getLsbD j = false) →
    (lzc < 32 → v.getLsbD (31 - lzc) = true) →
      bitWidth v = max 1 (32 - lzc) ∧ (v ≠ 0 → bitWidth v = 32 - lzc)

/-- R134, R150: the width is monotone, and a bucket of `W` bits fits exactly the values below `2^W`, its boundary
included. -/
def Obligations.BucketFitIsANumberBound : Prop :=
  (∀ x y : Value, x.toNat ≤ y.toNat → bitWidth x ≤ bitWidth y) ∧
    (∀ (x : Value) (w : Nat), 1 ≤ w → w ≤ 32 → (bitWidth x ≤ w ↔ x.toNat < 2 ^ w)) ∧
      ∀ x : Value, bitWidth x ≤ 13 ↔ x.toNat ≤ 0x1FFF

/-! ### The codec, one element at a time -/

/-- R142: ENC.A is a header and a payload written by WBITS. -/
def Obligations.EncAWritesHeaderAndPayload : Prop :=
  ∀ (s : State) (v : Value), s.WriterInv →
    (bitWidth v ≤ 16 → ∃ t u, exec (.wbits 1 1) s = .next t ∧ exec (.wbits v 16) t = .next u ∧
        exec (.encA v) s = .next { u with result := some 17 }) ∧
      (16 < bitWidth v → ∃ t u, exec (.wbits 0 1) s = .next t ∧ exec (.wbits v 28) t = .next u ∧
        exec (.encA v) s = .next { u with result := some 29 })

/-- R144: ENC.B is a header and a payload written by WBITS. -/
def Obligations.EncBWritesHeaderAndPayload : Prop :=
  ∀ (s : State) (v : Value), s.WriterInv →
    (bitWidth v ≤ 13 → ∃ t u, exec (.wbits 1 1) s = .next t ∧ exec (.wbits v 13) t = .next u ∧
        exec (.encB v) s = .next { u with result := some 14 }) ∧
      (13 < bitWidth v → bitWidth v ≤ 16 → ∃ t u, exec (.wbits 2 2) s = .next t ∧ exec (.wbits v 16) t = .next u ∧
          exec (.encB v) s = .next { u with result := some 18 }) ∧
        (16 < bitWidth v → ∃ t u, exec (.wbits 0 2) s = .next t ∧ exec (.wbits v 32) t = .next u ∧
          exec (.encB v) s = .next { u with result := some 34 })

/-- R146: ENC.C is a header and a payload written by WBITS. -/
def Obligations.EncCWritesHeaderAndPayload : Prop :=
  ∀ (s : State) (v : Value), s.WriterInv →
    ∃ t u, exec (.wbits (BitVec.ofNat 32 (bitWidth v)) 5) s = .next t ∧
      exec (.wbits v (BitVec.ofNat 6 (bitWidth v))) t = .next u ∧
        exec (.encC v) s = .next { u with result := some (BitVec.ofNat 32 (5 + bitWidth v)) }

/-- R143: DEC.A is a header and a payload read by RBITS. -/
def Obligations.DecAReadsHeaderAndPayload : Prop :=
  ∀ s : State, s.ReaderInv →
    ∃ t h u, exec (.rbits 1) s = .next t ∧ t.result = some h ∧
      exec (.rbits (if h = 1 then 16 else 28)) t = .next u ∧ exec .decA s = .next u

/-- R145: DEC.B reads one header bit, a second one only if the first is 0, and a payload, by RBITS. -/
def Obligations.DecBReadsHeaderAndPayload : Prop :=
  ∀ s : State, s.ReaderInv →
    ∃ t h1, exec (.rbits 1) s = .next t ∧ t.result = some h1 ∧
      (h1 = 1 → ∃ u, exec (.rbits 13) t = .next u ∧ exec .decB s = .next u) ∧
        (h1 ≠ 1 → ∃ u h2 z, exec (.rbits 1) t = .next u ∧ u.result = some h2 ∧
          exec (.rbits (if h2 = 1 then 16 else 32)) u = .next z ∧ exec .decB s = .next z)

/-- R147: DEC.C reads the 5-bit header and as many payload bits as it names, 32 for the header 0. -/
def Obligations.DecCReadsHeaderAndPayload : Prop :=
  ∀ s : State, s.ReaderInv →
    ∃ t h u, exec (.rbits 5) s = .next t ∧ t.result = some h ∧
      exec (.rbits (if h = 0 then 32 else BitVec.ofNat 6 h.toNat)) t = .next u ∧ exec .decC s = .next u

/-- R152, first part: the ENC result is the element's length, by the table of widths, and that many bits are appended to
the written stream. -/
def Obligations.EncResultIsTheElementLength : Prop :=
  ∀ (s : State) (v : Value) (sch : Scheme), s.WriterInv →
    ∃ t len, exec (encCommand sch v) s = .next t ∧ t.result = some (BitVec.ofNat 32 len) ∧
      t.written = s.written ++ elementBits ⟨selectFor sch v, v⟩ ∧ t.written.length = s.written.length + len ∧
        (sch = .a → len = if bitWidth v ≤ 16 then 17 else 29) ∧
          (sch = .b → len = if bitWidth v ≤ 13 then 14 else if bitWidth v ≤ 16 then 18 else 34) ∧
            (sch = .c → len = 5 + bitWidth v)

/-- R149, last part: with an empty reader and an exhausted source every DEC command returns 0 and changes nothing. -/
def Obligations.DecOnAnExhaustedSourceReturnsZero : Prop :=
  ∀ (s : State) (sch : Scheme), s.rCnt = 0 → s.src = [] →
    exec (decCommand sch) s = .next { s with result := some 0 }

/-- R69 to R71, R75, R141: an element, once fetched, gives its payload to the host and changes nothing else; all
thirty-seven. The payload field has the bucket's width (notes/assumptions/3.md). -/
def Obligations.ElementsDeliverTheirPayload : Prop :=
  ∀ (i : Instr) (e : Element) (s : State), i.element? = some e →
    exec i s = .next { s with result := some (BitVec.ofNat 32 (e.payload.toNat % 2 ^ e.bucket.payloadBits)) } ∧
      (i.WellFormed = true → exec i s = .next { s with result := some e.payload })

/-- R141, R72, R149: a DEC command executes the element that stands at the front of the unread stream, in a state that
differs only in the reader and the source and in which the stream behind the element is left. -/
def Obligations.DecExecutesTheElementOfTheStream : Prop :=
  ∀ (s : State) (sch : Scheme), s.ReaderInv →
    ∃ t, exec (decCommand sch) s = exec (decodeElement sch s.unread).1.toInstr t ∧
      t.unread = (decodeElement sch s.unread).2 ∧ t.ReaderInv ∧
        t.wBuf = s.wBuf ∧ t.wCnt = s.wCnt ∧ t.sink = s.sink ∧ t.port = s.port

/-- R151: an element comes back, at any stream position. -/
def Obligations.ElementRoundTrip : Prop :=
  ∀ (s r : State) (sch : Scheme) (v : Value) (more : List Bool), s.WriterInv → r.ReaderInv →
    ∃ t u pushed, exec (encCommand sch v) s = .next t ∧ exec .wflush t = .next u ∧ u.sink = s.sink ++ pushed ∧
      (r.unread = (streamBits pushed).drop s.wCnt.toNat ++ more →
        ∃ r', exec (decCommand sch) r = .next r' ∧ r'.result = some (schemeValue sch v))

/-! ### Codec sessions -/

/-- R182: the round trip of a whole session, in every scheme. -/
def Obligations.SessionRoundTrip : Prop :=
  ∀ (s r : State) (sch : Scheme) (values : List Value) (more : List Byte), s.WriterInv → s.wCnt = 0 →
    ∃ t lengths pushed, runCommands (Pseudo.encode sch values).expand s = .next (t, lengths) ∧
      t.sink = s.sink ++ pushed ∧
        (r.src = pushed ++ more →
          ∃ u, runCommands (Pseudo.decode sch values.length).expand r = .next (u, values.map (schemeValue sch)))

/-- R183, R180: the size of a session's output, how much of it the ENC commands push, the results of the ENC commands, and
the empty writer the session leaves. -/
def Obligations.SessionSize : Prop :=
  ∀ (s : State) (sch : Scheme) (values : List Value), s.WriterInv → s.wCnt = 0 →
    (∃ u results early, runCommands (values.map (encCommand sch)) s = .next (u, results) ∧
      u.sink = s.sink ++ early ∧ early.length = sessionBits sch values / 8) ∧
    ∃ t pushed, runCommands (Pseudo.encode sch values).expand s =
        .next (t, values.map fun v => BitVec.ofNat 32 (selectFor sch v).totalBits) ∧
      t.sink = s.sink ++ pushed ∧ pushed.length = (sessionBits sch values + 7) / 8 ∧ t.wCnt = 0 ∧ t.wBuf = 0

/-- R184: the output of a session is that of the fields header, payload, header, payload, ..., written by WBITS. -/
def Obligations.SessionContent : Prop :=
  ∀ (s : State) (sch : Scheme) (values : List Value), s.WriterInv → s.wCnt = 0 →
    ∃ t lengths, runCommands (Pseudo.encode sch values).expand s = .next (t, lengths) ∧
      t.sink = s.sink ++ octetsOf (fieldsNumber (values.flatMap (elementFields sch))) ((sessionBits sch values + 7) / 8)

/-- R187 for the elements behind the cut, and R186: DECODE completes and returns as many values as asked for, whatever the
source holds; once the unread stream is empty every value is 0. -/
def Obligations.DecodeAlwaysReturnsItsCount : Prop :=
  ∀ (s : State) (sch : Scheme) (k : Nat),
    (∃ t results, runCommands (Pseudo.decode sch k).expand s = .next (t, results) ∧ results.length = k) ∧
      (s.src = [] → ∃ t, runCommands (Pseudo.decode sch k).expand s = .next (t, List.replicate k 0))
end

