-- ==== Sys2Proof/Laws/Bits.lean ====
section
/-!
SUPPORT. Lists of bits: what `lowBits`, `fieldOf`, `takeField`, `byteBits`, `streamBits` and `packOctets` do to each
other.
-/
namespace Sys2Proof

@[simp] theorem lowBits_length (n : Nat) (v : Value) : (lowBits n v).length = n := by simp [lowBits]

@[simp] theorem lowBits_zero (v : Value) : lowBits 0 v = [] := rfl

theorem lowBits_getElem? (n : Nat) (v : Value) (i : Nat) :
    (lowBits n v)[i]? = if i < n then some (v.getLsbD i) else none := by
  simp only [lowBits, List.getElem?_map]
  split
  · rename_i h; simp [List.getElem?_range h]
  · rename_i h; simp [h]

@[simp] theorem byteBits_length (b : Byte) : (byteBits b).length = 8 := by simp [byteBits]

theorem byteBits_getElem? (b : Byte) (j : Nat) :
    (byteBits b)[j]? = if j < 8 then some (b.getLsbD j) else none := by
  simp only [byteBits, List.getElem?_map]
  split
  · rename_i h; simp [List.getElem?_range h]
  · rename_i h; simp [h]

@[simp] theorem streamBits_nil : streamBits [] = [] := rfl

@[simp] theorem streamBits_cons (b : Byte) (l : List Byte) : streamBits (b :: l) = byteBits b ++ streamBits l := rfl

@[simp] theorem streamBits_append (l m : List Byte) : streamBits (l ++ m) = streamBits l ++ streamBits m := by
  simp [streamBits]

@[simp] theorem streamBits_length (l : List Byte) : (streamBits l).length = 8 * l.length := by
  induction l with
  | nil => rfl
  | cons b l ih => simp [ih]; omega

/-- The number of a list of bits lies below two to the length. -/
theorem fieldOf_lt (bits : List Bool) : fieldOf bits < 2 ^ bits.length := by
  induction bits with
  | nil => simp [fieldOf]
  | cons b bs ih =>
    have : b.toNat ≤ 1 := Bool.toNat_le b
    simp only [fieldOf, List.length_cons, pow_succ]
    omega

theorem fieldOf_append (a b : List Bool) : fieldOf (a ++ b) = fieldOf a + 2 ^ a.length * fieldOf b := by
  induction a with
  | nil => simp [fieldOf]
  | cons x a ih => simp only [List.cons_append, fieldOf, ih, List.length_cons, pow_succ]; ring

@[simp] theorem fieldOf_replicate_false (n : Nat) : fieldOf (List.replicate n false) = 0 := by
  induction n with
  | zero => rfl
  | succ n ih => simp [List.replicate_succ, fieldOf, ih]

/-- Bit `i` of the number of a list is the list's `i`-th bit, 0 past its end. -/
theorem fieldOf_testBit (bits : List Bool) (i : Nat) : (fieldOf bits).testBit i = bits.getD i false := by
  induction bits generalizing i with
  | nil => simp [fieldOf]
  | cons b bs ih =>
    cases i with
    | zero => cases b <;> simp [fieldOf, Nat.testBit_zero]
    | succ i =>
      have h : (b.toNat + 2 * fieldOf bs) / 2 = fieldOf bs := by
        have := Bool.toNat_le b; omega
      simp [fieldOf, Nat.testBit_succ, h, ih]

/-- The low `n` bits of a value as a number. -/
theorem fieldOf_lowBits (n : Nat) (v : Value) : fieldOf (lowBits n v) = v.toNat % 2 ^ n := by
  apply Nat.eq_of_testBit_eq
  intro i
  rw [fieldOf_testBit, Nat.testBit_mod_two_pow, List.getD_eq_getElem?_getD, lowBits_getElem?]
  by_cases h : i < n <;> simp [h, BitVec.getLsbD]

/-- The bits of an octet as a number. -/
theorem fieldOf_byteBits (b : Byte) : fieldOf (byteBits b) = b.toNat := by
  apply Nat.eq_of_testBit_eq
  intro i
  rw [fieldOf_testBit, List.getD_eq_getElem?_getD, byteBits_getElem?]
  by_cases h : i < 8
  · simp [h, BitVec.getLsbD]
  · simp only [h, if_false, Option.getD_none]
    exact (Nat.testBit_lt_two_pow (lt_of_lt_of_le b.isLt (Nat.pow_le_pow_right (by omega) (by omega)))).symm

/-- The bits of an octet made from the number of at most eight bits are those bits, then zeros. -/
theorem byteBits_ofField (bits : List Bool) (h : bits.length ≤ 8) :
    byteBits (BitVec.ofNat 8 (fieldOf bits)) = bits ++ List.replicate (8 - bits.length) false := by
  apply List.ext_getElem?
  intro j
  rw [byteBits_getElem?]
  by_cases hj : j < 8
  · simp only [hj, if_true, BitVec.getLsbD_ofNat, decide_true, Bool.true_and, fieldOf_testBit]
    by_cases hb : j < bits.length
    · simp [List.getElem?_append_left hb, List.getD_eq_getElem?_getD, hb]
    · rw [List.getElem?_append_right (by omega)]
      simp [List.getElem?_replicate, List.getD_eq_getElem?_getD, List.getElem?_eq_none (Nat.le_of_not_lt hb)]
      omega
  · simp [hj]; omega

/-- A field taken from the front of a long enough stream gives the bits back. -/
theorem takeField_lowBits_append (n : Nat) (v : Value) (rest : List Bool) :
    takeField n (lowBits n v ++ rest) = (BitVec.ofNat 32 (v.toNat % 2 ^ n), rest) := by
  have := lowBits_length n v
  simp [takeField, fieldOf_lowBits]

theorem takeField_toNat (n : Nat) (hn : n ≤ 32) (bits : List Bool) :
    (takeField n bits).1.toNat = fieldOf (bits.take n) := by
  have h := fieldOf_lt (bits.take n)
  have h2 : (bits.take n).length ≤ n := List.length_take_le _ _
  have h3 : 2 ^ (bits.take n).length ≤ 2 ^ 32 := Nat.pow_le_pow_right (by omega) (by omega)
  simp only [takeField, BitVec.toNat_ofNat]
  exact Nat.mod_eq_of_lt (lt_of_lt_of_le h h3)

/-- Writing the field that was taken gives the bits taken, then zeros for the missing ones. -/
theorem lowBits_takeField (n : Nat) (hn : n ≤ 32) (bits : List Bool) :
    lowBits n (takeField n bits).1 = bits.take n ++ List.replicate (n - bits.length) false := by
  apply List.ext_getElem?
  intro i
  rw [lowBits_getElem?]
  have hbit : (takeField n bits).1.getLsbD i = (bits.take n).getD i false := by
    rw [BitVec.getLsbD, takeField_toNat n hn, fieldOf_testBit]
  by_cases hi : i < n
  · simp only [hi, if_true, hbit]
    by_cases hb : i < bits.length
    · have hl : i < (bits.take n).length := by simp; omega
      rw [List.getElem?_append_left hl, List.getD_eq_getElem?_getD, List.getElem?_eq_getElem hl]
      rfl
    · have hl : (bits.take n).length ≤ i := by simp; omega
      rw [List.getElem?_append_right hl, List.getD_eq_getElem?_getD, List.getElem?_eq_none hl]
      simp [List.getElem?_replicate]
      omega
  · rw [List.getElem?_eq_none]
    · simp [hi]
    · simp; omega

theorem fieldOf_drop (l : List Bool) (k : Nat) : fieldOf (l.drop k) = fieldOf l / 2 ^ k := by
  apply Nat.eq_of_testBit_eq
  intro i
  rw [fieldOf_testBit, Nat.testBit_div_two_pow, fieldOf_testBit, List.getD_eq_getElem?_getD,
    List.getD_eq_getElem?_getD, List.getElem?_drop, Nat.add_comm]

theorem fieldOf_take (l : List Bool) (k : Nat) : fieldOf (l.take k) = fieldOf l % 2 ^ k := by
  apply Nat.eq_of_testBit_eq
  intro i
  rw [fieldOf_testBit, Nat.testBit_mod_two_pow, fieldOf_testBit, List.getD_eq_getElem?_getD,
    List.getD_eq_getElem?_getD, List.getElem?_take]
  by_cases h : i < k <;> simp [h]

theorem streamBits_take (l : List Byte) (k : Nat) : streamBits (l.take k) = (streamBits l).take (8 * k) := by
  induction l generalizing k with
  | nil => simp
  | cons b l ih =>
    cases k with
    | zero => simp
    | succ k =>
      rw [List.take_succ_cons, streamBits_cons, streamBits_cons, ih, List.take_append, byteBits_length]
      have : 8 * (k + 1) - 8 = 8 * k := by omega
      rw [this, List.take_of_length_le (l := byteBits b) (by rw [byteBits_length]; omega)]

end Sys2Proof
end

