-- ==== Sys2Proof/Laws/State.lean ====
section
/-!
SUPPORT. One lemma per field per update of State, all true by definition, so that no later proof unfolds a record
update.
-/
namespace Sys2Proof.Machine

section
variable (b : Byte) (bytes : List Byte) (s : State)

@[simp] theorem sinkPush_wBuf : (sinkPush b s).wBuf = s.wBuf := rfl
@[simp] theorem sinkPush_wCnt : (sinkPush b s).wCnt = s.wCnt := rfl
@[simp] theorem sinkPush_rBuf : (sinkPush b s).rBuf = s.rBuf := rfl
@[simp] theorem sinkPush_rCnt : (sinkPush b s).rCnt = s.rCnt := rfl
@[simp] theorem sinkPush_sink : (sinkPush b s).sink = s.sink ++ [b] := rfl
@[simp] theorem sinkPush_src : (sinkPush b s).src = s.src := rfl
@[simp] theorem sinkPush_port : (sinkPush b s).port = s.port := rfl
@[simp] theorem sinkPush_result : (sinkPush b s).result = s.result := rfl

@[simp] theorem initReader_wBuf : (initReader s).wBuf = s.wBuf := rfl
@[simp] theorem initReader_wCnt : (initReader s).wCnt = s.wCnt := rfl
@[simp] theorem initReader_rBuf : (initReader s).rBuf = 0 := rfl
@[simp] theorem initReader_rCnt : (initReader s).rCnt = 0 := rfl
@[simp] theorem initReader_sink : (initReader s).sink = s.sink := rfl
@[simp] theorem initReader_src : (initReader s).src = s.src := rfl
@[simp] theorem initReader_port : (initReader s).port = s.port := rfl
@[simp] theorem initReader_result : (initReader s).result = s.result := rfl

@[simp] theorem resetRegisters_wBuf : (resetRegisters s).wBuf = 0 := rfl
@[simp] theorem resetRegisters_wCnt : (resetRegisters s).wCnt = 0 := rfl
@[simp] theorem resetRegisters_rBuf : (resetRegisters s).rBuf = 0 := rfl
@[simp] theorem resetRegisters_rCnt : (resetRegisters s).rCnt = 0 := rfl
@[simp] theorem resetRegisters_sink : (resetRegisters s).sink = s.sink := rfl
@[simp] theorem resetRegisters_src : (resetRegisters s).src = s.src := rfl
@[simp] theorem resetRegisters_port : (resetRegisters s).port = s.port := rfl
@[simp] theorem resetRegisters_result : (resetRegisters s).result = s.result := rfl

@[simp] theorem clearSink_wBuf : (clearSink s).wBuf = s.wBuf := rfl
@[simp] theorem clearSink_wCnt : (clearSink s).wCnt = s.wCnt := rfl
@[simp] theorem clearSink_rBuf : (clearSink s).rBuf = s.rBuf := rfl
@[simp] theorem clearSink_rCnt : (clearSink s).rCnt = s.rCnt := rfl
@[simp] theorem clearSink_sink : (clearSink s).sink = [] := rfl
@[simp] theorem clearSink_src : (clearSink s).src = s.src := rfl
@[simp] theorem clearSink_port : (clearSink s).port = s.port := rfl
@[simp] theorem clearSink_result : (clearSink s).result = s.result := rfl

@[simp] theorem loadSource_wBuf : (loadSource bytes s).wBuf = s.wBuf := rfl
@[simp] theorem loadSource_wCnt : (loadSource bytes s).wCnt = s.wCnt := rfl
@[simp] theorem loadSource_rBuf : (loadSource bytes s).rBuf = s.rBuf := rfl
@[simp] theorem loadSource_rCnt : (loadSource bytes s).rCnt = s.rCnt := rfl
@[simp] theorem loadSource_sink : (loadSource bytes s).sink = s.sink := rfl
@[simp] theorem loadSource_src : (loadSource bytes s).src = bytes := rfl
@[simp] theorem loadSource_port : (loadSource bytes s).port = s.port := rfl
@[simp] theorem loadSource_result : (loadSource bytes s).result = s.result := rfl

@[simp] theorem appendSource_wBuf : (appendSource bytes s).wBuf = s.wBuf := rfl
@[simp] theorem appendSource_wCnt : (appendSource bytes s).wCnt = s.wCnt := rfl
@[simp] theorem appendSource_rBuf : (appendSource bytes s).rBuf = s.rBuf := rfl
@[simp] theorem appendSource_rCnt : (appendSource bytes s).rCnt = s.rCnt := rfl
@[simp] theorem appendSource_sink : (appendSource bytes s).sink = s.sink := rfl
@[simp] theorem appendSource_src : (appendSource bytes s).src = s.src ++ bytes := rfl
@[simp] theorem appendSource_port : (appendSource bytes s).port = s.port := rfl
@[simp] theorem appendSource_result : (appendSource bytes s).result = s.result := rfl

@[simp] theorem rewindSource_wBuf : (rewindSource s).wBuf = s.wBuf := rfl
@[simp] theorem rewindSource_wCnt : (rewindSource s).wCnt = s.wCnt := rfl
@[simp] theorem rewindSource_rBuf : (rewindSource s).rBuf = s.rBuf := rfl
@[simp] theorem rewindSource_rCnt : (rewindSource s).rCnt = s.rCnt := rfl
@[simp] theorem rewindSource_sink : (rewindSource s).sink = s.sink := rfl
@[simp] theorem rewindSource_src : (rewindSource s).src = s.sink := rfl
@[simp] theorem rewindSource_port : (rewindSource s).port = s.port := rfl
@[simp] theorem rewindSource_result : (rewindSource s).result = s.result := rfl

@[simp] theorem consumeBit_bit : (consumeBit s).1 = s.rBuf.getLsbD (8 - s.rCnt.toNat) := rfl
@[simp] theorem consumeBit_wBuf : (consumeBit s).2.wBuf = s.wBuf := rfl
@[simp] theorem consumeBit_wCnt : (consumeBit s).2.wCnt = s.wCnt := rfl
@[simp] theorem consumeBit_rBuf : (consumeBit s).2.rBuf = s.rBuf := rfl
@[simp] theorem consumeBit_rCnt : (consumeBit s).2.rCnt = s.rCnt - 1 := rfl
@[simp] theorem consumeBit_sink : (consumeBit s).2.sink = s.sink := rfl
@[simp] theorem consumeBit_src : (consumeBit s).2.src = s.src := rfl
@[simp] theorem consumeBit_port : (consumeBit s).2.port = s.port := rfl
@[simp] theorem consumeBit_result : (consumeBit s).2.result = s.result := rfl

@[simp] theorem flushWriter_wBuf : (flushWriter s).wBuf = 0 := rfl
@[simp] theorem flushWriter_wCnt : (flushWriter s).wCnt = 0 := rfl
@[simp] theorem flushWriter_rBuf : (flushWriter s).rBuf = s.rBuf := by
  unfold flushWriter; split <;> rfl
@[simp] theorem flushWriter_rCnt : (flushWriter s).rCnt = s.rCnt := by
  unfold flushWriter; split <;> rfl
@[simp] theorem flushWriter_sink :
    (flushWriter s).sink = if s.wCnt ≠ 0 then s.sink ++ [s.wBuf] else s.sink := by
  unfold flushWriter; split <;> rfl
@[simp] theorem flushWriter_src : (flushWriter s).src = s.src := by
  unfold flushWriter; split <;> rfl
@[simp] theorem flushWriter_port : (flushWriter s).port = s.port := by
  unfold flushWriter; split <;> rfl
@[simp] theorem flushWriter_result : (flushWriter s).result = s.result := by
  unfold flushWriter; split <;> rfl

@[simp] theorem reset_wBuf : State.reset.wBuf = 0 := rfl
@[simp] theorem reset_wCnt : State.reset.wCnt = 0 := rfl
@[simp] theorem reset_rBuf : State.reset.rBuf = 0 := rfl
@[simp] theorem reset_rCnt : State.reset.rCnt = 0 := rfl
@[simp] theorem reset_sink : State.reset.sink = [] := rfl
@[simp] theorem reset_src : State.reset.src = [] := rfl
@[simp] theorem reset_port : State.reset.port = [] := rfl
@[simp] theorem reset_result : State.reset.result = none := rfl

end

end Sys2Proof.Machine
end

