-- ==== Sys2Proof/Laws/Writer.lean ====
section
/-!
SUPPORT. What the writer's operations do, said once each: they keep the writer invariant, extend the written stream by
the bits given, and touch nothing but the writer's registers and the sink.
-/
namespace Sys2Proof.Machine

/-- Everything the writer's operations leave alone. -/
structure SameButWriter (s t : State) : Prop where
  rBuf : t.rBuf = s.rBuf
  rCnt : t.rCnt = s.rCnt
  src : t.src = s.src
  port : t.port = s.port
  result : t.result = s.result

theorem SameButWriter.rfl' (s : State) : SameButWriter s s := ⟨rfl, rfl, rfl, rfl, rfl⟩

theorem SameButWriter.trans' {s t u : State} (h : SameButWriter s t) (k : SameButWriter t u) : SameButWriter s u :=
  ⟨k.rBuf.trans h.rBuf, k.rCnt.trans h.rCnt, k.src.trans h.src, k.port.trans h.port, k.result.trans h.result⟩

@[simp] theorem pendingBits_length (s : State) : s.pendingBits.length = s.wCnt.toNat := by
  simp [State.pendingBits]

/-- The number of the pending bits is `w_buf` itself. -/
theorem fieldOf_pendingBits (s : State) (h : s.WriterInv) : fieldOf s.pendingBits = s.wBuf.toNat := by
  apply Nat.eq_of_testBit_eq
  intro i
  rw [fieldOf_testBit, List.getD_eq_getElem?_getD]
  by_cases hi : i < s.wCnt.toNat
  · simp [State.pendingBits, List.getElem?_range hi, BitVec.getLsbD]
  · have : s.wBuf.toNat.testBit i = false :=
      Nat.testBit_lt_two_pow (lt_of_lt_of_le h.2 (Nat.pow_le_pow_right (by omega) (by omega)))
    rw [List.getElem?_eq_none (by simp; omega), this]
    rfl

/-- Or-ing the next bit in at position `w_cnt` appends it to the number held. -/
theorem or_bit_toNat (s : State) (h : s.WriterInv) (bit : Bool) :
    (if bit then s.wBuf ||| ((1 : Byte) <<< s.wCnt.toNat) else s.wBuf).toNat =
      s.wBuf.toNat + 2 ^ s.wCnt.toNat * bit.toNat := by
  obtain ⟨h1, h2⟩ := h
  cases bit
  · simp
  · have hs : ((1 : Byte) <<< s.wCnt.toNat).toNat = 2 ^ s.wCnt.toNat := by
      have : 2 ^ s.wCnt.toNat < 2 ^ 8 := Nat.pow_lt_pow_right (by omega) (by omega)
      rw [BitVec.toNat_shiftLeft, Nat.shiftLeft_eq]
      simpa using this
    have hor : s.wBuf.toNat ||| 2 ^ s.wCnt.toNat = s.wBuf.toNat + 2 ^ s.wCnt.toNat := by
      have := Nat.two_pow_add_eq_or_of_lt h2 1
      rw [Nat.mul_one] at this
      rw [Nat.or_comm, ← this, Nat.add_comm]
    rw [if_pos rfl, BitVec.toNat_or, hs, hor]
    simp

theorem cnt_succ_toNat (s : State) (h : s.wCnt.toNat ≤ 7) : (s.wCnt + 1).toNat = s.wCnt.toNat + 1 := by
  rw [BitVec.toNat_add]; simp; omega

/-- The next bit completes an octet exactly when seven are held. -/
theorem cnt_succ_eq_eight (s : State) (h : s.wCnt.toNat ≤ 7) : s.wCnt + 1 = 8 ↔ s.wCnt.toNat = 7 := by
  rw [← BitVec.toNat_inj, cnt_succ_toNat s h]; simp

/-- Everything one turn of the writer's loop can do. -/
theorem writeBit_cases (bit : Bool) (s : State) (h : s.WriterInv) :
    (s.wCnt.toNat = 7 ∧ ∃ b : Byte, b.toNat = s.wBuf.toNat + 2 ^ 7 * bit.toNat ∧
        writeBit bit s = { s with wBuf := 0, wCnt := 0, sink := s.sink ++ [b] }) ∨
      (s.wCnt.toNat < 7 ∧ ∃ b : Byte, b.toNat = s.wBuf.toNat + 2 ^ s.wCnt.toNat * bit.toNat ∧
        writeBit bit s = { s with wBuf := b, wCnt := s.wCnt + 1 }) := by
  have hb := or_bit_toNat s h bit
  have h8 := cnt_succ_eq_eight s h.1
  by_cases h7 : s.wCnt.toNat = 7
  · left
    rw [h7] at hb
    refine ⟨h7, _, hb, ?_⟩
    simp only [writeBit, h8.2 h7, if_true, sinkPush, h7]
  · right
    refine ⟨by have := h.1; omega, _, hb, ?_⟩
    simp only [writeBit, h8, h7, if_false]

theorem writeBit_writerInv (bit : Bool) (s : State) (h : s.WriterInv) : (writeBit bit s).WriterInv := by
  have hbit := Bool.toNat_le bit
  obtain ⟨-, b, -, e⟩ | ⟨h7, b, hb, e⟩ := writeBit_cases bit s h
  · rw [e]; exact ⟨by simp, by simp⟩
  · have hc := cnt_succ_toNat s h.1
    have h2 := h.2
    have hm : 2 ^ s.wCnt.toNat * bit.toNat ≤ 2 ^ s.wCnt.toNat * 1 := Nat.mul_le_mul_left _ hbit
    rw [e]
    refine ⟨by simp only [hc]; omega, ?_⟩
    simp only [hc, hb, pow_succ]
    omega

theorem writeBit_same (bit : Bool) (s : State) (h : s.WriterInv) : SameButWriter s (writeBit bit s) := by
  obtain ⟨-, b, -, e⟩ | ⟨-, b, -, e⟩ := writeBit_cases bit s h <;> rw [e] <;> exact ⟨rfl, rfl, rfl, rfl, rfl⟩

/-- The pending bits are the low bits of `w_buf`'s number, so equal length and number make them equal. -/
theorem bits_eq_of_field (a b : List Bool) (hl : a.length = b.length) (hf : fieldOf a = fieldOf b) : a = b := by
  apply List.ext_getElem?
  intro i
  by_cases hi : i < a.length
  · have := congrArg (Nat.testBit · i) hf
    simp only [fieldOf_testBit, List.getD_eq_getElem?_getD] at this
    rw [List.getElem?_eq_getElem hi, List.getElem?_eq_getElem (hl ▸ hi)] at this ⊢
    simpa using this
  · rw [List.getElem?_eq_none (by omega), List.getElem?_eq_none (by omega)]

/-- One turn of the writer's loop appends its bit to the written stream. -/
theorem writeBit_written (bit : Bool) (s : State) (h : s.WriterInv) :
    (writeBit bit s).written = s.written ++ [bit] := by
  have hp := fieldOf_pendingBits s h
  obtain ⟨h7, b, hb, e⟩ | ⟨h7, b, hb, e⟩ := writeBit_cases bit s h
  · have : byteBits b = s.pendingBits ++ [bit] := by
      apply bits_eq_of_field
      · simp [h7]
      · simp [fieldOf_byteBits, fieldOf_append, hp, fieldOf, h7, hb]
    rw [e]
    simp [State.written, State.pendingBits] at this ⊢
    exact this
  · have hc := cnt_succ_toNat s h.1
    have hi := writeBit_writerInv bit s h
    have : (writeBit bit s).pendingBits = s.pendingBits ++ [bit] := by
      apply bits_eq_of_field
      · rw [e]; simp only [pendingBits_length, hc, List.length_append, List.length_singleton]
      · rw [fieldOf_pendingBits _ hi, e]
        simp [fieldOf_append, hp, fieldOf, hb]
    have hs : (writeBit bit s).sink = s.sink := by rw [e]
    rw [State.written, this, hs, State.written, List.append_assoc]

/-- Writing a list of bits one by one. -/
theorem foldl_writeBit (bits : List Bool) (s : State) (h : s.WriterInv) :
    (bits.foldl (fun t b => writeBit b t) s).WriterInv ∧
      (bits.foldl (fun t b => writeBit b t) s).written = s.written ++ bits ∧
        SameButWriter s (bits.foldl (fun t b => writeBit b t) s) := by
  induction bits generalizing s with
  | nil => exact ⟨h, by simp, .rfl' s⟩
  | cons b bits ih =>
    obtain ⟨i1, i2, i3⟩ := ih (writeBit b s) (writeBit_writerInv b s h)
    exact ⟨i1, by simp [i2, writeBit_written b s h], (writeBit_same b s h).trans' i3⟩

/-- WriteBits is its bits written one by one, the lowest first (R90). -/
theorem writeBits_eq_foldl (v : Value) (k : Nat) (s : State) :
    writeBits v k s = (lowBits (clampCount k) v).foldl (fun t b => writeBit b t) s := by
  simp [writeBits, lowBits, List.foldl_map]

theorem writeBits_writerInv (v : Value) (k : Nat) (s : State) (h : s.WriterInv) : (writeBits v k s).WriterInv := by
  rw [writeBits_eq_foldl]; exact (foldl_writeBit _ s h).1

/-- WriteBits appends its field to the written stream. -/
theorem writeBits_written (v : Value) (k : Nat) (s : State) (h : s.WriterInv) :
    (writeBits v k s).written = s.written ++ lowBits (clampCount k) v := by
  rw [writeBits_eq_foldl]; exact (foldl_writeBit _ s h).2.1

theorem writeBits_same (v : Value) (k : Nat) (s : State) (h : s.WriterInv) : SameButWriter s (writeBits v k s) := by
  rw [writeBits_eq_foldl]; exact (foldl_writeBit _ s h).2.2

theorem headerBits_le (b : Bucket) : clampCount b.headerBits = b.headerBits := by cases b <;> rfl

theorem widthOfHeader_bounds (h : BitVec 5) : 1 ≤ widthOfHeader h ∧ widthOfHeader h ≤ 32 := by
  unfold widthOfHeader
  split
  · omega
  · rename_i hn
    have h1 := h.isLt
    have h2 : h.toNat ≠ 0 := fun e => hn (BitVec.eq_of_toNat_eq (by simpa using e))
    omega

theorem payloadBits_bounds (b : Bucket) : 1 ≤ b.payloadBits ∧ b.payloadBits ≤ 32 := by
  cases b <;> first | exact widthOfHeader_bounds _ | exact ⟨by decide, by decide⟩

theorem payloadBits_le (b : Bucket) : clampCount b.payloadBits = b.payloadBits :=
  Nat.min_eq_left (payloadBits_bounds b).2

/-- Emitting an element is its bits written one by one (R68). -/
theorem emitElement_eq_foldl (e : Element) (s : State) :
    emitElement e s = (elementBits e).foldl (fun t b => writeBit b t) s := by
  rw [emitElement, writeBits_eq_foldl, writeBits_eq_foldl, headerBits_le, payloadBits_le, ← List.foldl_append]
  rfl

theorem emitElement_writerInv (e : Element) (s : State) (h : s.WriterInv) : (emitElement e s).WriterInv :=
  writeBits_writerInv _ _ _ (writeBits_writerInv _ _ _ h)

/-- Emitting an element appends its bits to the written stream (R68). -/
theorem emitElement_written (e : Element) (s : State) (h : s.WriterInv) :
    (emitElement e s).written = s.written ++ elementBits e := by
  unfold emitElement elementBits
  rw [writeBits_written _ _ _ (writeBits_writerInv _ _ _ h), writeBits_written _ _ _ h, headerBits_le, payloadBits_le,
    List.append_assoc]

theorem emitElement_same (e : Element) (s : State) (h : s.WriterInv) : SameButWriter s (emitElement e s) :=
  (writeBits_same _ _ _ h).trans' (writeBits_same _ _ _ (writeBits_writerInv _ _ _ h))

theorem flushWriter_writerInv (s : State) : (flushWriter s).WriterInv := ⟨by simp, by simp⟩

theorem flushWriter_same (s : State) : SameButWriter s (flushWriter s) :=
  ⟨by simp, by simp, by simp, by simp, by simp⟩

/-- Flushing pads the written stream with zeros to the next octet (R50, R91). -/
theorem flushWriter_written (s : State) (h : s.WriterInv) :
    (flushWriter s).written =
      s.written ++ List.replicate (if s.wCnt = 0 then 0 else 8 - s.wCnt.toNat) false := by
  have hp := fieldOf_pendingBits s h
  by_cases hc : s.wCnt = 0
  · simp [State.written, State.pendingBits, hc]
  · have hb : s.wBuf = BitVec.ofNat 8 (fieldOf s.pendingBits) := by rw [hp]; simp
    have hl : s.pendingBits.length ≤ 8 := by simp; have := h.1; omega
    have he := byteBits_ofField s.pendingBits hl
    rw [← hb] at he
    have hs : (flushWriter s).sink = s.sink ++ [s.wBuf] := by rw [flushWriter_sink, if_pos hc]
    have hn : (flushWriter s).pendingBits = [] := rfl
    rw [State.written, hs, hn, if_neg hc]
    simp [State.written, he]

/-- The sink and the written stream determine each other between commands: the sink is the whole octets, the buffer the
rest (R97). -/
theorem written_length (s : State) : s.written.length = 8 * s.sink.length + s.wCnt.toNat := by
  simp [State.written]

end Sys2Proof.Machine
end

