-- ==== Sys2Proof/Laws/Reader.lean ====
section
/-!
SUPPORT. What the reader's operations do, said once each: they keep the reader invariant, take bits from the front of the
unread stream, and touch nothing but the reader's registers and the source.
-/
namespace Sys2Proof.Machine

/-- Everything the reader's operations leave alone. -/
structure SameButReader (s t : State) : Prop where
  wBuf : t.wBuf = s.wBuf
  wCnt : t.wCnt = s.wCnt
  sink : t.sink = s.sink
  port : t.port = s.port
  result : t.result = s.result

theorem SameButReader.rfl' (s : State) : SameButReader s s := ⟨rfl, rfl, rfl, rfl, rfl⟩

theorem SameButReader.trans' {s t u : State} (h : SameButReader s t) (k : SameButReader t u) : SameButReader s u :=
  ⟨k.wBuf.trans h.wBuf, k.wCnt.trans h.wCnt, k.sink.trans h.sink, k.port.trans h.port, k.result.trans h.result⟩

/-- Everything ReadBit can do (R111): an exhausted source, a refill, a buffered bit. -/
theorem readBit_cases (s : State) :
    (s.rCnt = 0 ∧ s.src = [] ∧ readBit s = (false, s)) ∨
      (∃ b rest, s.rCnt = 0 ∧ s.src = b :: rest ∧
        readBit s = (b.getLsbD 0, { s with rBuf := b, rCnt := 7, src := rest })) ∨
      (s.rCnt ≠ 0 ∧ readBit s = (s.rBuf.getLsbD (8 - s.rCnt.toNat), { s with rCnt := s.rCnt - 1 })) := by
  by_cases hc : s.rCnt = 0
  · cases hs : s.src with
    | nil => exact .inl ⟨hc, rfl, by simp [readBit, hc, srcPop, hs]⟩
    | cons b rest => exact .inr (.inl ⟨b, rest, hc, rfl, by simp [readBit, hc, srcPop, hs, consumeBit]⟩)
  · exact .inr (.inr ⟨hc, by rw [readBit, if_neg hc, consumeBit]⟩)

theorem cnt_pred_toNat (c : Cnt) (h : c ≠ 0) : (c - 1).toNat = c.toNat - 1 := by
  have h1 : c.toNat ≠ 0 := fun e => h (BitVec.eq_of_toNat_eq (by simpa using e))
  have h2 := c.isLt
  rw [BitVec.toNat_sub]
  simp
  omega

theorem readBit_readerInv (s : State) (h : s.ReaderInv) : (readBit s).2.ReaderInv := by
  obtain ⟨-, -, e⟩ | ⟨b, rest, -, -, e⟩ | ⟨hc, e⟩ := readBit_cases s
  · rw [e]; exact h
  · rw [e]; show (7 : Cnt).toNat ≤ 7; decide
  · rw [e]
    have := cnt_pred_toNat s.rCnt hc
    simp only [State.ReaderInv] at h ⊢
    omega

theorem readBit_same (s : State) : SameButReader s (readBit s).2 := by
  obtain ⟨-, -, e⟩ | ⟨b, rest, -, -, e⟩ | ⟨-, e⟩ := readBit_cases s <;> rw [e] <;> exact ⟨rfl, rfl, rfl, rfl, rfl⟩

/-- ReadBit takes the first bit of the unread stream, and 0 from an empty one (R111, R114). -/
theorem readBit_unread (s : State) (h : s.ReaderInv) :
    (readBit s).1 = s.unread.headD false ∧ (readBit s).2.unread = s.unread.tail := by
  obtain ⟨hc, hs, e⟩ | ⟨b, rest, hc, hs, e⟩ | ⟨hc, e⟩ := readBit_cases s
  · simp [e, State.unread, State.bufferedBits, hc, hs]
  · rw [e]
    simp [State.unread, State.bufferedBits, hc, hs, byteBits, List.range_succ]
  · have hp := cnt_pred_toNat s.rCnt hc
    have h1 : s.rCnt.toNat ≠ 0 := fun e => hc (BitVec.eq_of_toNat_eq (by simpa using e))
    have h7 : s.rCnt.toNat ≤ 7 := h
    have hlt : 8 - s.rCnt.toNat < (byteBits s.rBuf).length := by simp; omega
    have hd : s.bufferedBits = s.rBuf.getLsbD (8 - s.rCnt.toNat) :: (byteBits s.rBuf).drop (8 - s.rCnt.toNat + 1) := by
      rw [State.bufferedBits, List.drop_eq_getElem_cons hlt]
      congr 1
      simp [byteBits]
    have ht : 8 - (s.rCnt.toNat - 1) = 8 - s.rCnt.toNat + 1 := by omega
    rw [e]
    refine ⟨by simp [State.unread, hd], ?_⟩
    simp only [State.unread, hd, List.cons_append, List.tail_cons]
    simp only [State.bufferedBits, hp, ht]

theorem take_succ_getD (l : List Bool) (k : Nat) :
    fieldOf (l.take (k + 1)) = fieldOf (l.take k) + 2 ^ k * (l.getD k false).toNat := by
  by_cases h : k < l.length
  · rw [List.take_succ_eq_append_getElem h, fieldOf_append]
    have : min k l.length = k := by omega
    simp [fieldOf, List.getD_eq_getElem?_getD, h, this]
  · rw [List.take_of_length_le (by omega), List.take_of_length_le (by omega), List.getD_eq_getElem?_getD,
      List.getElem?_eq_none (by omega)]
    simp

theorem or_shifted_bit (x : Nat) (k : Nat) (hx : x < 2 ^ k) (hk : k < 32) (bit : Bool) :
    (BitVec.ofNat 32 x ||| ((if bit then (1 : Value) else 0) <<< k)) = BitVec.ofNat 32 (x + 2 ^ k * bit.toNat) := by
  have h32 : 2 ^ k < 2 ^ 32 := Nat.pow_lt_pow_right (by omega) hk
  have h33 : 2 ^ (k + 1) ≤ 2 ^ 32 := Nat.pow_le_pow_right (by omega) hk
  rw [pow_succ] at h33
  apply BitVec.eq_of_toNat_eq
  cases bit
  · simp
  · have hs : ((1 : Value) <<< k).toNat = 2 ^ k := by
      rw [BitVec.toNat_shiftLeft, Nat.shiftLeft_eq]
      simpa using h32
    have hor : x ||| 2 ^ k = x + 2 ^ k := by
      have := Nat.two_pow_add_eq_or_of_lt hx 1
      rw [Nat.mul_one] at this
      rw [Nat.or_comm, ← this, Nat.add_comm]
    rw [if_pos rfl, BitVec.toNat_or, hs, BitVec.toNat_ofNat, Nat.mod_eq_of_lt (by omega), hor, BitVec.toNat_ofNat,
      Bool.toNat_true, Nat.mul_one, Nat.mod_eq_of_lt (by omega)]

/-- The loop of RBITS over the first `k` positions, `k ≤ 32`. -/
theorem readLoop_spec (k : Nat) (hk : k ≤ 32) (s : State) (h : s.ReaderInv) :
    ((List.range k).foldl readTurn (0, s)).1 = BitVec.ofNat 32 (fieldOf (s.unread.take k)) ∧
      ((List.range k).foldl readTurn (0, s)).2.unread = s.unread.drop k ∧
        ((List.range k).foldl readTurn (0, s)).2.ReaderInv ∧
          SameButReader s ((List.range k).foldl readTurn (0, s)).2 := by
  induction k with
  | zero => exact ⟨by simp [fieldOf], by simp, h, .rfl' s⟩
  | succ k ih =>
    obtain ⟨i1, i2, i3, i4⟩ := ih (by omega)
    rw [List.range_succ, List.foldl_append]
    generalize (List.range k).foldl readTurn (0, s) = st at i1 i2 i3 i4 ⊢
    obtain ⟨acc, t⟩ := st
    obtain ⟨b1, b2⟩ := readBit_unread t i3
    have hx : fieldOf (s.unread.take k) < 2 ^ k :=
      lt_of_lt_of_le (fieldOf_lt _) (Nat.pow_le_pow_right (by omega) (List.length_take_le _ _))
    simp only at i1 i2 i4
    refine ⟨?_, ?_, readBit_readerInv t i3, i4.trans' (readBit_same t)⟩
    · simp only [List.foldl_cons, List.foldl_nil, readTurn]
      rw [i1, b1, i2, or_shifted_bit _ _ hx (by omega), take_succ_getD]
      congr 4
      simp [List.headD_eq_head?_getD, List.getD_eq_getElem?_getD]
    · simp only [List.foldl_cons, List.foldl_nil, readTurn]
      rw [b2, i2, List.tail_drop]

theorem clampCount_le (k : Nat) : clampCount k ≤ 32 := Nat.min_le_right _ _

/-- ReadBits takes a field from the front of the unread stream (R110, R114). -/
theorem readBits_takeField (k : Nat) (s : State) (h : s.ReaderInv) :
    (readBits k s).1 = (takeField (clampCount k) s.unread).1 ∧
      (readBits k s).2.unread = (takeField (clampCount k) s.unread).2 := by
  obtain ⟨i1, i2, -, -⟩ := readLoop_spec _ (clampCount_le k) s h
  exact ⟨i1, i2⟩

theorem readBits_readerInv (k : Nat) (s : State) (h : s.ReaderInv) : (readBits k s).2.ReaderInv :=
  (readLoop_spec _ (clampCount_le k) s h).2.2.1

theorem readBits_same (k : Nat) (s : State) (h : s.ReaderInv) : SameButReader s (readBits k s).2 :=
  (readLoop_spec _ (clampCount_le k) s h).2.2.2

/-- Fetching a payload takes it from the front of the unread stream. -/
theorem fetchPayload_takePayload (b : Bucket) (s : State) (h : s.ReaderInv) :
    (fetchPayload b s).1 = (takePayload b s.unread).1 ∧ (fetchPayload b s).2.unread = (takePayload b s.unread).2 := by
  obtain ⟨h1, h2⟩ := readBits_takeField b.payloadBits s h
  rw [payloadBits_le] at h1 h2
  exact ⟨by simp [fetchPayload, takePayload, h1], by simp [fetchPayload, takePayload, h2]⟩

theorem fetchPayload_readerInv (b : Bucket) (s : State) (h : s.ReaderInv) : (fetchPayload b s).2.ReaderInv :=
  readBits_readerInv _ s h

theorem fetchPayload_same (b : Bucket) (s : State) (h : s.ReaderInv) : SameButReader s (fetchPayload b s).2 :=
  readBits_same _ s h

/-- The codec engine's fetch is the element decoder run on the unread stream (R141). -/
theorem fetchElement_decodeElement (sch : Scheme) (s : State) (h : s.ReaderInv) :
    (fetchElement sch s).1 = (decodeElement sch s.unread).1 ∧
      (fetchElement sch s).2.unread = (decodeElement sch s.unread).2 := by
  have h1 := readBits_takeField 1 s h
  have i1 := readBits_readerInv 1 s h
  cases sch with
  | a =>
    simp only [fetchElement, decodeElement, show clampCount 1 = 1 from rfl] at h1 ⊢
    rw [← h1.1, ← h1.2]
    split <;> exact fetchPayload_takePayload _ _ i1
  | b =>
    have h2 := readBits_takeField 1 _ i1
    have i2 := readBits_readerInv 1 _ i1
    simp only [fetchElement, decodeElement, show clampCount 1 = 1 from rfl] at h1 h2 ⊢
    rw [← h1.1, ← h1.2, ← h2.1, ← h2.2]
    split
    · exact fetchPayload_takePayload _ _ i1
    · split <;> exact fetchPayload_takePayload _ _ i2
  | c =>
    have h5 := readBits_takeField 5 s h
    have i5 := readBits_readerInv 5 s h
    simp only [fetchElement, decodeElement, show clampCount 5 = 5 from rfl] at h5 ⊢
    rw [← h5.1, ← h5.2]
    exact fetchPayload_takePayload _ _ i5

theorem fetchElement_readerInv_same (sch : Scheme) (s : State) (h : s.ReaderInv) :
    (fetchElement sch s).2.ReaderInv ∧ SameButReader s (fetchElement sch s).2 := by
  have i1 := readBits_readerInv 1 s h
  have e1 := readBits_same 1 s h
  have one : ∀ b t, t.ReaderInv → SameButReader s t →
      (fetchPayload b t).2.ReaderInv ∧ SameButReader s (fetchPayload b t).2 :=
    fun b t ht hs => ⟨fetchPayload_readerInv b t ht, hs.trans' (fetchPayload_same b t ht)⟩
  cases sch with
  | a => simp only [fetchElement]; split <;> exact one _ _ i1 e1
  | b =>
    have i2 := readBits_readerInv 1 _ i1
    have e2 := e1.trans' (readBits_same 1 _ i1)
    simp only [fetchElement]
    split
    · exact one _ _ i1 e1
    · split <;> exact one _ _ i2 e2
  | c => simp only [fetchElement]; exact one _ _ (readBits_readerInv 5 s h) (readBits_same 5 s h)

end Sys2Proof.Machine
end

