-- ==== Sys2Proof/Laws/Exec.lean ====
section
/-!
SUPPORT. What the ways of completing a command answer, and how the codec commands look through the two streams.
-/
namespace Sys2Proof.Machine

theorem withWriter_of (s : State) (h : s.WriterInv) (run : Host.Outcome State Fault Refusal) :
    withWriter s run = run := if_pos h

theorem withWriter_not (s : State) (h : ¬ s.WriterInv) (run : Host.Outcome State Fault Refusal) :
    withWriter s run = .refused .writerOutsideInvariant := if_neg h

theorem withReader_of (s : State) (h : s.ReaderInv) (run : Host.Outcome State Fault Refusal) :
    withReader s run = run := if_pos h

theorem withReader_not (s : State) (h : ¬ s.ReaderInv) (run : Host.Outcome State Fault Refusal) :
    withReader s run = .refused .readerOutsideInvariant := if_neg h

/-- A writer command that answers a next state ran in a state of the invariant. -/
theorem withWriter_next {s t : State} {run : Host.Outcome State Fault Refusal} (h : withWriter s run = .next t) :
    s.WriterInv ∧ run = .next t := by
  by_cases hi : s.WriterInv
  · exact ⟨hi, by rwa [withWriter_of s hi] at h⟩
  · rw [withWriter_not s hi] at h; exact nomatch h

/-- A reader command that answers a next state ran in a state of the invariant. -/
theorem withReader_next {s t : State} {run : Host.Outcome State Fault Refusal} (h : withReader s run = .next t) :
    s.ReaderInv ∧ run = .next t := by
  by_cases hi : s.ReaderInv
  · exact ⟨hi, by rwa [withReader_of s hi] at h⟩
  · rw [withReader_not s hi] at h; exact nomatch h

theorem complete_next {r : Option Value} {s t : State} (h : complete r s = .next t) : t = { s with result := r } := by
  cases h; rfl

/-- The views of the two streams do not look at the result. -/
@[simp] theorem written_result (s : State) (r : Option Value) : { s with result := r }.written = s.written := rfl
@[simp] theorem unread_result (s : State) (r : Option Value) : { s with result := r }.unread = s.unread := rfl

/-- Encoding a value into a bucket: everything it can do. -/
theorem encodeInto_next {b : Bucket} {v : Value} {s t : State} (h : encodeInto b v s = .next t) :
    s.WriterInv ∧ t.WriterInv ∧ t.written = s.written ++ elementBits ⟨b, v⟩ ∧
      t.result = some (BitVec.ofNat 32 b.totalBits) ∧ SameButWriter s { t with result := s.result } := by
  obtain ⟨hi, hr⟩ := withWriter_next h
  have ht := complete_next hr
  have hs := emitElement_same ⟨b, v⟩ s hi
  subst ht
  exact ⟨hi, emitElement_writerInv _ s hi, by simp [emitElement_written _ s hi], rfl,
    ⟨hs.rBuf, hs.rCnt, hs.src, hs.port, rfl⟩⟩

/-- Decoding a value of a scheme: everything it can do. -/
theorem decodeFrom_next {sch : Scheme} {s t : State} (h : decodeFrom sch s = .next t) :
    s.ReaderInv ∧ t.ReaderInv ∧ t.unread = (decodeElement sch s.unread).2 ∧
      t.result = some (BitVec.ofNat 32 ((decodeElement sch s.unread).1.payload.toNat %
        2 ^ (decodeElement sch s.unread).1.bucket.payloadBits)) ∧ SameButReader s { t with result := s.result } := by
  obtain ⟨hi, hr⟩ := withReader_next h
  have ht := complete_next hr
  obtain ⟨h1, h2⟩ := fetchElement_decodeElement sch s hi
  obtain ⟨h3, h4⟩ := fetchElement_readerInv_same sch s hi
  subst ht
  exact ⟨hi, h3, by simp [h2], by simp [h1], ⟨h4.wBuf, h4.wCnt, h4.sink, h4.port, rfl⟩⟩

end Sys2Proof.Machine
end

