-- ==== Sys2Proof/Laws/ClosedForms.lean ====
section
/-!
SUPPORT. The closed forms of the two loops (spec/40_bit_stream_writer.md R95, spec/41_bit_stream_reader.md R116) at the
level of the operations: the whole state after writing a list of bits, and after reading a number of bits.
-/
namespace Sys2Proof.Machine

/-! ### Octets and numbers -/

@[simp] theorem octetsOf_zero (z : Nat) : octetsOf z 0 = [] := rfl

@[simp] theorem octetsOf_length (z k : Nat) : (octetsOf z k).length = k := by simp [octetsOf]

theorem octetsOf_succ (z k : Nat) : octetsOf z (k + 1) = octetsOf z k ++ [BitVec.ofNat 8 (z / 2 ^ (8 * k) % 256)] := by
  simp [octetsOf, List.range_succ]

/-- Octets below place `k` do not see what is added at or above bit `8k`. -/
theorem octetsOf_add_high (z y k p : Nat) (h : 8 * k ≤ p) : octetsOf (z + 2 ^ p * y) k = octetsOf z k := by
  apply List.map_congr_left
  intro m hm
  have hm : m < k := List.mem_range.1 hm
  congr 1
  have hp : 2 ^ p = 2 ^ (8 * m) * (256 * 2 ^ (p - 8 * m - 8)) := by
    rw [show (256 : Nat) = 2 ^ 8 from rfl, ← pow_add, ← pow_add]; congr 1; omega
  rw [hp, Nat.mul_assoc, Nat.add_mul_div_left _ _ (by positivity), Nat.mul_assoc, Nat.add_mul_mod_self_left]

/-- The number of a stream of octets. -/
theorem fieldOf_streamBits (l : List Byte) : fieldOf (streamBits l) = octetsNumber l := by
  induction l with
  | nil => rfl
  | cons b l ih => simp [fieldOf_append, fieldOf_byteBits, ih, octetsNumber]

theorem octetsNumber_lt (l : List Byte) : octetsNumber l < 2 ^ (8 * l.length) := by
  rw [← fieldOf_streamBits, ← streamBits_length]; exact fieldOf_lt _

/-! ### Writing -/

/-- The whole state after writing a list of bits. -/
theorem foldl_writeBit_closed (bits : List Bool) (s : State) (h : s.WriterInv) :
    bits.foldl (fun t b => writeBit b t) s =
      { s with
        wBuf := BitVec.ofNat 8 ((s.wBuf.toNat + 2 ^ s.wCnt.toNat * fieldOf bits) /
          2 ^ (8 * ((s.wCnt.toNat + bits.length) / 8)))
        wCnt := BitVec.ofNat 4 ((s.wCnt.toNat + bits.length) % 8)
        sink := s.sink ++ octetsOf (s.wBuf.toNat + 2 ^ s.wCnt.toNat * fieldOf bits)
          ((s.wCnt.toNat + bits.length) / 8) } := by
  induction bits using List.reverseRecOn with
  | nil =>
    have h0 : s.wCnt.toNat / 8 = 0 := by have := h.1; omega
    have h1 : s.wCnt.toNat % 8 = s.wCnt.toNat := by have := h.1; omega
    simp [fieldOf, h0, h1]
  | append_singleton bits bit ih =>
    rw [List.foldl_append, List.foldl_cons, List.foldl_nil]
    have hinv := (foldl_writeBit bits s h).1
    rw [ih] at hinv ⊢
    have hc := h.1
    have hbit := Bool.toNat_le bit
    set c := s.wCnt.toNat with hcdef
    set L := c + bits.length with hL
    set z := s.wBuf.toNat + 2 ^ c * fieldOf bits with hz
    have hzn : s.wBuf.toNat + 2 ^ c * fieldOf (bits ++ [bit]) = z + 2 ^ L * bit.toNat := by
      simp only [fieldOf_append, fieldOf, hz, hL, pow_add]; ring
    have hzlt : z < 2 ^ L := by
      have h2 : s.wBuf.toNat < 2 ^ c := h.2
      have hf := fieldOf_lt bits
      have : 2 ^ c * (fieldOf bits + 1) ≤ 2 ^ c * 2 ^ bits.length := Nat.mul_le_mul_left _ hf
      rw [hL, pow_add, hz]
      rw [Nat.mul_add] at this
      omega
    have hbuf : z / 2 ^ (8 * (L / 8)) < 2 ^ (L % 8) := by
      rw [Nat.div_lt_iff_lt_mul (by positivity), ← pow_add]
      calc z < 2 ^ L := hzlt
        _ = _ := by congr 1; omega
    have hL8 : L % 8 < 8 := Nat.mod_lt _ (by omega)
    have hcnt : (BitVec.ofNat 4 (L % 8)).toNat = L % 8 := by
      rw [BitVec.toNat_ofNat]; exact Nat.mod_eq_of_lt (by omega)
    have hb8 : 2 ^ (L % 8) < 2 ^ 8 := Nat.pow_lt_pow_right (by omega) hL8
    have hbn : (BitVec.ofNat 8 (z / 2 ^ (8 * (L / 8)))).toNat = z / 2 ^ (8 * (L / 8)) := by
      rw [BitVec.toNat_ofNat]; exact Nat.mod_eq_of_lt (by omega)
    have hlen : c + (bits ++ [bit]).length = L + 1 := by simp [hL]; omega
    have hpow : 2 ^ L = 2 ^ (8 * (L / 8)) * 2 ^ (L % 8) := by rw [← pow_add]; congr 1; omega
    have hdiv : (z + 2 ^ L * bit.toNat) / 2 ^ (8 * (L / 8)) = z / 2 ^ (8 * (L / 8)) + 2 ^ (L % 8) * bit.toNat := by
      rw [hpow, Nat.mul_assoc, Nat.add_mul_div_left _ _ (by positivity)]
    have hoct : octetsOf (z + 2 ^ L * bit.toNat) (L / 8) = octetsOf z (L / 8) :=
      octetsOf_add_high _ _ _ _ (by omega)
    rw [hzn, hlen]
    obtain ⟨h7, b, hb, e⟩ | ⟨h7, b, hb, e⟩ := writeBit_cases bit _ hinv
    · simp only [hcnt, hbn] at h7 hb
      have hd : (L + 1) / 8 = L / 8 + 1 := by omega
      have hm : (L + 1) % 8 = 0 := by omega
      have hbz : b = BitVec.ofNat 8 ((z + 2 ^ L * bit.toNat) / 2 ^ (8 * (L / 8)) % 256) := by
        apply BitVec.eq_of_toNat_eq
        rw [BitVec.toNat_ofNat, hdiv, h7, hb]
        have hlt := b.isLt
        rw [hb] at hlt
        omega
      have hz0 : (z + 2 ^ L * bit.toNat) / 2 ^ (8 * (L / 8 + 1)) = 0 := by
        apply Nat.div_eq_of_lt
        have : 2 ^ (8 * (L / 8 + 1)) = 2 ^ L * 2 := by rw [← pow_succ]; congr 1; omega
        have h3 : 2 ^ L * bit.toNat ≤ 2 ^ L * 1 := Nat.mul_le_mul_left _ hbit
        omega
      rw [e, hd, hm, octetsOf_succ, hoct, ← hbz, hz0]
      simp
    · simp only [hcnt, hbn] at h7 hb
      have hd : (L + 1) / 8 = L / 8 := by omega
      have hm : (L + 1) % 8 = L % 8 + 1 := by omega
      have hbz : b = BitVec.ofNat 8 ((z + 2 ^ L * bit.toNat) / 2 ^ (8 * (L / 8))) := by
        apply BitVec.eq_of_toNat_eq
        rw [BitVec.toNat_ofNat, hdiv, hb]
        have hlt := b.isLt
        rw [hb] at hlt
        omega
      have hcc : BitVec.ofNat 4 (L % 8) + 1 = BitVec.ofNat 4 (L % 8 + 1) := by
        apply BitVec.eq_of_toNat_eq
        simp [BitVec.toNat_add]
      rw [e, hd, hm, hoct, ← hbz, hcc]

/-! ### Reading -/

theorem getLastD_take_succ (l : List Byte) (k : Nat) (h : k < l.length) (d : Byte) :
    (l.take (k + 1)).getLastD d = l[k] := by
  rw [List.take_succ_eq_append_getElem h, List.getLastD_concat]

/-- The number of octets a read of `k` bits pulls: enough for the bits the buffer does not hold, if the source has
them. -/
def pulledOctets (s : State) (k : Nat) : Nat := min ((k - s.rCnt.toNat + 7) / 8) s.src.length

/-- The whole state after reading `k ≤ 32` bits. -/
theorem readLoop_state (k : Nat) (hk : k ≤ 32) (s : State) (h : s.ReaderInv) :
    ((List.range k).foldl readTurn (0, s)).2 =
      { s with
        rBuf := (s.src.take (pulledOctets s k)).getLastD s.rBuf
        rCnt := BitVec.ofNat 4 (s.rCnt.toNat + 8 * pulledOctets s k - k)
        src := s.src.drop (pulledOctets s k) } := by
  induction k with
  | zero => simp [pulledOctets]
  | succ k ih =>
    rw [List.range_succ, List.foldl_append]
    have ih := ih (by omega)
    generalize (List.range k).foldl readTurn (0, s) = st at ih ⊢
    obtain ⟨acc, t⟩ := st
    simp only at ih
    have hc : s.rCnt.toNat ≤ 7 := h
    set c := s.rCnt.toNat with hcdef
    set p := pulledOctets s k with hp
    have hpk : p = min ((k - c + 7) / 8) s.src.length := hp
    have hcnt8 : c + 8 * p - k ≤ 7 := by omega
    have hcnt : (BitVec.ofNat 4 (c + 8 * p - k)).toNat = c + 8 * p - k := by
      rw [BitVec.toNat_ofNat]; exact Nat.mod_eq_of_lt (by omega)
    have hpsucc : pulledOctets s (k + 1) = min ((k + 1 - c + 7) / 8) s.src.length := rfl
    have htc : t.rCnt.toNat = c + 8 * p - k := by rw [ih]; exact hcnt
    simp only [List.foldl_cons, List.foldl_nil, readTurn]
    obtain ⟨h0, hs, e⟩ | ⟨b, rest, h0, hs, e⟩ | ⟨h0, e⟩ := readBit_cases t
    · have htc0 : c + 8 * p - k = 0 := by rw [← htc, h0]; rfl
      have hlen : s.src.length ≤ p := by
        have : t.src.length = 0 := by rw [hs]; rfl
        rw [ih] at this
        simp at this
        omega
      have hpe : pulledOctets s (k + 1) = p := by rw [hpsucc]; omega
      have hce : c + 8 * p - (k + 1) = 0 := by omega
      rw [e, hpe, hce, ih, htc0]
    · have htc0 : c + 8 * p - k = 0 := by rw [← htc, h0]; rfl
      have hdrop : s.src.drop p = b :: rest := by rw [ih] at hs; exact hs
      have hlt : p < s.src.length := by
        by_contra hn
        rw [List.drop_eq_nil_of_le (by omega)] at hdrop
        exact nomatch hdrop
      rw [List.drop_eq_getElem_cons hlt] at hdrop
      obtain ⟨hb, hr⟩ := List.cons.inj hdrop
      have hpe : pulledOctets s (k + 1) = p + 1 := by rw [hpsucc]; omega
      have hce : c + 8 * (p + 1) - (k + 1) = 7 := by omega
      rw [e, hpe, hce, getLastD_take_succ _ _ hlt, hb, hr, ih]
      rfl
    · have hne : c + 8 * p - k ≠ 0 := by
        rw [← htc]; exact fun z => h0 (BitVec.eq_of_toNat_eq (by simpa using z))
      have hpe : pulledOctets s (k + 1) = p := by rw [hpsucc]; omega
      have hcc : t.rCnt - 1 = BitVec.ofNat 4 (c + 8 * p - (k + 1)) := by
        apply BitVec.eq_of_toNat_eq
        rw [cnt_pred_toNat _ h0, htc, BitVec.toNat_ofNat, Nat.mod_eq_of_lt (by omega)]
        omega
      rw [e, hpe, ← hcc, ih]

end Sys2Proof.Machine
end

