-- ==== Sys2Proof/Laws/Commands.lean ====
section
/-!
SUPPORT. What the commands answer in terms of the operations, and sequences of commands.
-/
namespace Sys2Proof.Machine

/-! ### The operations in closed form -/

/-- WriteBits as a whole (R95). -/
theorem writeBits_closed (v : Value) (k : Nat) (s : State) (h : s.WriterInv) :
    writeBits v k s =
      { s with
        wBuf := BitVec.ofNat 8 ((s.wBuf.toNat + 2 ^ s.wCnt.toNat * (v.toNat % 2 ^ clampCount k)) /
          2 ^ (8 * ((s.wCnt.toNat + clampCount k) / 8)))
        wCnt := BitVec.ofNat 4 ((s.wCnt.toNat + clampCount k) % 8)
        sink := s.sink ++ octetsOf (s.wBuf.toNat + 2 ^ s.wCnt.toNat * (v.toNat % 2 ^ clampCount k))
          ((s.wCnt.toNat + clampCount k) / 8) } := by
  rw [writeBits_eq_foldl, foldl_writeBit_closed _ _ h, fieldOf_lowBits, lowBits_length]

/-- The state ReadBits leaves (R116). -/
theorem readBits_state (k : Nat) (s : State) (h : s.ReaderInv) :
    (readBits k s).2 =
      { s with
        rBuf := (s.src.take (pulledOctets s (clampCount k))).getLastD s.rBuf
        rCnt := BitVec.ofNat 4 (s.rCnt.toNat + 8 * pulledOctets s (clampCount k) - clampCount k)
        src := s.src.drop (pulledOctets s (clampCount k)) } :=
  readLoop_state _ (clampCount_le k) s h

/-- The value ReadBits returns (R46, R110). -/
theorem readBits_value (k : Nat) (s : State) (h : s.ReaderInv) :
    (readBits k s).1 = BitVec.ofNat 32 (fieldOf (s.unread.take (clampCount k))) :=
  (readLoop_spec _ (clampCount_le k) s h).1

/-! ### The commands -/

theorem exec_wbits (s : State) (v : Value) (n : Count) (h : s.WriterInv) :
    exec (.wbits v n) s = .next { writeBits v n.toNat s with result := some (BitVec.ofNat 32 (min n.toNat 32)) } :=
  withWriter_of s h _

theorem exec_wflush (s : State) (h : s.WriterInv) : exec .wflush s = .next { flushWriter s with result := none } :=
  withWriter_of s h _

theorem exec_rbits (s : State) (n : Count) (h : s.ReaderInv) :
    exec (.rbits n) s = .next { (readBits n.toNat s).2 with result := some (readBits n.toNat s).1 } :=
  withReader_of s h _

theorem encodeInto_of (b : Bucket) (v : Value) (s : State) (h : s.WriterInv) :
    encodeInto b v s =
      .next { (elementBits ⟨b, v⟩).foldl (fun t b => writeBit b t) s with
        result := some (BitVec.ofNat 32 b.totalBits) } := by
  rw [encodeInto, withWriter_of s h, emitElement_eq_foldl, complete]

theorem exec_encCommand (sch : Scheme) (v : Value) (s : State) :
    exec (encCommand sch v) s = encodeInto (selectFor sch v) v s := by
  cases sch <;> rfl

theorem exec_decCommand (sch : Scheme) (s : State) : exec (decCommand sch) s = decodeFrom sch s := by
  cases sch <;> rfl

/-! ### Sequences -/

/-- Everything a run of a command and more commands can answer. -/
theorem runCommands_cons_next {i : Instr} {s u : State} {rest : List Instr} {results : List Value}
    (h : runCommands (i :: rest) s = .next (u, results)) :
    ∃ t later, exec i s = .next t ∧ runCommands rest t = .next (u, later) ∧ results = t.result.toList ++ later := by
  unfold runCommands at h
  cases he : exec i s with
  | next t =>
    rw [he] at h
    cases hr : runCommands rest t with
    | next p => obtain ⟨u', later⟩ := p; simp only [hr] at h; cases h; exact ⟨t, later, rfl, hr, rfl⟩
    | fault f => simp [hr] at h
    | refused r => simp [hr] at h
  | fault f => simp [he] at h
  | refused r => simp [he] at h

theorem runCommands_cons {i : Instr} {s t u : State} {rest : List Instr} {later : List Value} (h : exec i s = .next t)
    (h2 : runCommands rest t = .next (u, later)) : runCommands (i :: rest) s = .next (u, t.result.toList ++ later) := by
  simp [runCommands, h, h2]

theorem runCommands_append {is js : List Instr} {s t u : State} {first later : List Value}
    (h : runCommands is s = .next (t, first)) (h2 : runCommands js t = .next (u, later)) :
    runCommands (is ++ js) s = .next (u, first ++ later) := by
  induction is generalizing s first with
  | nil => simp [runCommands] at h; obtain ⟨rfl, rfl⟩ := h; simpa using h2
  | cons i is ih =>
    obtain ⟨t', rs, h3, h4, rfl⟩ := runCommands_cons_next h
    rw [List.cons_append, runCommands_cons h3 (ih h4), List.append_assoc]

/-- One more step of a run of the core. -/
theorem run_succ (m : Host.Core) (k : Nat) (s t : m.State) (h : m.step s = .next t) : m.run (k + 1) s = m.run k t := by
  simp only [Host.Core.run, h]

end Sys2Proof.Machine
end

