-- ==== Sys2Proof/Laws/Elements.lean ====
section
/-!
SUPPORT. The elements of the packed stream (spec/30_encoding.md R68 to R72): their bits, their decoding, and the fetch
of each scheme as an equation.
-/
namespace Sys2Proof.Machine

theorem elementBits_length (e : Element) : (elementBits e).length = e.bucket.totalBits := by
  simp [elementBits, Bucket.totalBits]

theorem takePayload_lowBits (b : Bucket) (p : Value) (hp : p.toNat < 2 ^ b.payloadBits) (rest : List Bool) :
    takePayload b (lowBits b.payloadBits p ++ rest) = (⟨b, p⟩, rest) := by
  have hv : BitVec.ofNat 32 p.toNat = p := by simp
  rw [takePayload, takeField_lowBits_append, Nat.mod_eq_of_lt hp, hv]

/-- The payload fits its bucket in a well-formed element. -/
theorem payload_lt_of_wellFormed (i : Instr) (e : Element) (h : i.element? = some e) (hw : i.WellFormed = true) :
    e.payload.toNat < 2 ^ e.bucket.payloadBits := by
  cases i <;> simp [Instr.element?] at h <;> subst h <;>
    simpa [Instr.WellFormed, payloadFits, Bucket.payloadBits, widthOfHeader] using hw

theorem toInstr_of_element? (i : Instr) (e : Element) (h : i.element? = some e) : e.toInstr = i := by
  cases i <;> simp [Instr.element?] at h <;> subst h <;> rfl

theorem encode_of_element? (i : Instr) (e : Element) (h : i.element? = some e) : encode i = elementCode e := by
  cases i <;> simp [Instr.element?] at h <;> subst h <;> rfl

/-! ### The fetch of each scheme -/

theorem fetchElement_a (s : State) :
    fetchElement .a s =
      if (readBits 1 s).1 = 1 then fetchPayload .a16 (readBits 1 s).2 else fetchPayload .a28 (readBits 1 s).2 := by
  rw [fetchElement]

theorem fetchElement_b (s : State) :
    fetchElement .b s =
      if (readBits 1 s).1 = 1 then fetchPayload .b13 (readBits 1 s).2
      else if (readBits 1 (readBits 1 s).2).1 = 1 then fetchPayload .b16 (readBits 1 (readBits 1 s).2).2
        else fetchPayload .b32 (readBits 1 (readBits 1 s).2).2 := by
  rw [fetchElement]

theorem fetchElement_c (s : State) :
    fetchElement .c s = fetchPayload (.c ((readBits 5 s).1.setWidth 5)) (readBits 5 s).2 := by
  rw [fetchElement]

end Sys2Proof.Machine
end

