-- ==== Sys2Proof/Laws/PerInstr.lean ====
section
/-!
SUPPORT. The family EncodedLength: how many bits the code of each instruction has, as the opcode table's "width" column
gives it (spec/30_encoding.md R60, R69 to R71).
-/
namespace Sys2Proof.Laws

/-- The width of the instruction's row in spec/opcode_table.json. -/
def EncodedLength.tableWidth : Instr → Nat
  | .wbits _ _ => 42
  | .wflush => 42
  | .rbits _ => 42
  | .rinit => 42
  | .bwidth _ => 42
  | .encA _ => 42
  | .encB _ => 42
  | .encC _ => 42
  | .decA => 42
  | .decB => 42
  | .decC => 42
  | .elemA16 _ => 17
  | .elemA28 _ => 29
  | .elemB13 _ => 14
  | .elemB16 _ => 18
  | .elemB32 _ => 34
  | .elemC1 _ => 6
  | .elemC2 _ => 7
  | .elemC3 _ => 8
  | .elemC4 _ => 9
  | .elemC5 _ => 10
  | .elemC6 _ => 11
  | .elemC7 _ => 12
  | .elemC8 _ => 13
  | .elemC9 _ => 14
  | .elemC10 _ => 15
  | .elemC11 _ => 16
  | .elemC12 _ => 17
  | .elemC13 _ => 18
  | .elemC14 _ => 19
  | .elemC15 _ => 20
  | .elemC16 _ => 21
  | .elemC17 _ => 22
  | .elemC18 _ => 23
  | .elemC19 _ => 24
  | .elemC20 _ => 25
  | .elemC21 _ => 26
  | .elemC22 _ => 27
  | .elemC23 _ => 28
  | .elemC24 _ => 29
  | .elemC25 _ => 30
  | .elemC26 _ => 31
  | .elemC27 _ => 32
  | .elemC28 _ => 33
  | .elemC29 _ => 34
  | .elemC30 _ => 35
  | .elemC31 _ => 36
  | .elemC32 _ => 37

/-- The code of an instruction has the width of its table row. -/
def EncodedLength.Statement (i : Instr) : Prop := (encode i).bitLength = EncodedLength.tableWidth i

/-- An element's code has its header's bits and its payload's. -/
theorem elementCode_bitLength (e : Element) : (elementCode e).bitLength = e.bucket.totalBits := by
  simp [elementCode, Code.bitLength, elementBits, Bucket.totalBits]

theorem EncodedLength.wbits (v : Value) (n : Count) : EncodedLength.Statement (.wbits v n) := rfl
theorem EncodedLength.wflush : EncodedLength.Statement .wflush := rfl
theorem EncodedLength.rbits (n : Count) : EncodedLength.Statement (.rbits n) := rfl
theorem EncodedLength.rinit : EncodedLength.Statement .rinit := rfl
theorem EncodedLength.bwidth (v : Value) : EncodedLength.Statement (.bwidth v) := rfl
theorem EncodedLength.encA (v : Value) : EncodedLength.Statement (.encA v) := rfl
theorem EncodedLength.encB (v : Value) : EncodedLength.Statement (.encB v) := rfl
theorem EncodedLength.encC (v : Value) : EncodedLength.Statement (.encC v) := rfl
theorem EncodedLength.decA : EncodedLength.Statement .decA := rfl
theorem EncodedLength.decB : EncodedLength.Statement .decB := rfl
theorem EncodedLength.decC : EncodedLength.Statement .decC := rfl
theorem EncodedLength.elemA16 (p : Value) : EncodedLength.Statement (.elemA16 p) := elementCode_bitLength _
theorem EncodedLength.elemA28 (p : Value) : EncodedLength.Statement (.elemA28 p) := elementCode_bitLength _
theorem EncodedLength.elemB13 (p : Value) : EncodedLength.Statement (.elemB13 p) := elementCode_bitLength _
theorem EncodedLength.elemB16 (p : Value) : EncodedLength.Statement (.elemB16 p) := elementCode_bitLength _
theorem EncodedLength.elemB32 (p : Value) : EncodedLength.Statement (.elemB32 p) := elementCode_bitLength _
theorem EncodedLength.elemC1 (p : Value) : EncodedLength.Statement (.elemC1 p) := elementCode_bitLength _
theorem EncodedLength.elemC2 (p : Value) : EncodedLength.Statement (.elemC2 p) := elementCode_bitLength _
theorem EncodedLength.elemC3 (p : Value) : EncodedLength.Statement (.elemC3 p) := elementCode_bitLength _
theorem EncodedLength.elemC4 (p : Value) : EncodedLength.Statement (.elemC4 p) := elementCode_bitLength _
theorem EncodedLength.elemC5 (p : Value) : EncodedLength.Statement (.elemC5 p) := elementCode_bitLength _
theorem EncodedLength.elemC6 (p : Value) : EncodedLength.Statement (.elemC6 p) := elementCode_bitLength _
theorem EncodedLength.elemC7 (p : Value) : EncodedLength.Statement (.elemC7 p) := elementCode_bitLength _
theorem EncodedLength.elemC8 (p : Value) : EncodedLength.Statement (.elemC8 p) := elementCode_bitLength _
theorem EncodedLength.elemC9 (p : Value) : EncodedLength.Statement (.elemC9 p) := elementCode_bitLength _
theorem EncodedLength.elemC10 (p : Value) : EncodedLength.Statement (.elemC10 p) := elementCode_bitLength _
theorem EncodedLength.elemC11 (p : Value) : EncodedLength.Statement (.elemC11 p) := elementCode_bitLength _
theorem EncodedLength.elemC12 (p : Value) : EncodedLength.Statement (.elemC12 p) := elementCode_bitLength _
theorem EncodedLength.elemC13 (p : Value) : EncodedLength.Statement (.elemC13 p) := elementCode_bitLength _
theorem EncodedLength.elemC14 (p : Value) : EncodedLength.Statement (.elemC14 p) := elementCode_bitLength _
theorem EncodedLength.elemC15 (p : Value) : EncodedLength.Statement (.elemC15 p) := elementCode_bitLength _
theorem EncodedLength.elemC16 (p : Value) : EncodedLength.Statement (.elemC16 p) := elementCode_bitLength _
theorem EncodedLength.elemC17 (p : Value) : EncodedLength.Statement (.elemC17 p) := elementCode_bitLength _
theorem EncodedLength.elemC18 (p : Value) : EncodedLength.Statement (.elemC18 p) := elementCode_bitLength _
theorem EncodedLength.elemC19 (p : Value) : EncodedLength.Statement (.elemC19 p) := elementCode_bitLength _
theorem EncodedLength.elemC20 (p : Value) : EncodedLength.Statement (.elemC20 p) := elementCode_bitLength _
theorem EncodedLength.elemC21 (p : Value) : EncodedLength.Statement (.elemC21 p) := elementCode_bitLength _
theorem EncodedLength.elemC22 (p : Value) : EncodedLength.Statement (.elemC22 p) := elementCode_bitLength _
theorem EncodedLength.elemC23 (p : Value) : EncodedLength.Statement (.elemC23 p) := elementCode_bitLength _
theorem EncodedLength.elemC24 (p : Value) : EncodedLength.Statement (.elemC24 p) := elementCode_bitLength _
theorem EncodedLength.elemC25 (p : Value) : EncodedLength.Statement (.elemC25 p) := elementCode_bitLength _
theorem EncodedLength.elemC26 (p : Value) : EncodedLength.Statement (.elemC26 p) := elementCode_bitLength _
theorem EncodedLength.elemC27 (p : Value) : EncodedLength.Statement (.elemC27 p) := elementCode_bitLength _
theorem EncodedLength.elemC28 (p : Value) : EncodedLength.Statement (.elemC28 p) := elementCode_bitLength _
theorem EncodedLength.elemC29 (p : Value) : EncodedLength.Statement (.elemC29 p) := elementCode_bitLength _
theorem EncodedLength.elemC30 (p : Value) : EncodedLength.Statement (.elemC30 p) := elementCode_bitLength _
theorem EncodedLength.elemC31 (p : Value) : EncodedLength.Statement (.elemC31 p) := elementCode_bitLength _
theorem EncodedLength.elemC32 (p : Value) : EncodedLength.Statement (.elemC32 p) := elementCode_bitLength _

end Sys2Proof.Laws
end

