-- ==== Sys2Proof/Laws/Step.lean ====
section
/-!
SUPPORT. Everything a step can do, said once.
-/
namespace Sys2Proof.Machine

/-- A step that answers a next state waited, ran a decoded command, or took another action of the host off the port. -/
theorem step_cases {s t : State} (h : step s = .next t) :
    (s.port = [] ∧ t = s) ∨
      (∃ w rest i, s.port = .issue w :: rest ∧ decodeCommand w = .instr i ∧ exec i { s with port := rest } = .next t) ∨
        (∃ rest, s.port = .readSink :: rest ∧ t = { s with port := rest }) ∨
          (∃ rest, s.port = .clearSink :: rest ∧ t = clearSink { s with port := rest }) ∨
            (∃ bytes rest, s.port = .loadSource bytes :: rest ∧ t = loadSource bytes { s with port := rest }) ∨
              (∃ bytes rest, s.port = .appendSource bytes :: rest ∧ t = appendSource bytes { s with port := rest }) ∨
                (∃ rest, s.port = .rewind :: rest ∧ t = rewindSource { s with port := rest }) ∨
                  (∃ rest, s.port = .reset :: rest ∧ t = resetRegisters { s with port := rest }) := by
  unfold step nextAction at h
  cases hp : s.port with
  | nil => rw [hp] at h; cases h; exact .inl ⟨rfl, rfl⟩
  | cons a rest =>
    rw [hp] at h
    cases a with
    | issue w =>
      simp only at h
      cases hd : decodeCommand w with
      | instr i => rw [hd] at h; exact .inr (.inl ⟨w, rest, i, rfl, hd, h⟩)
      | reserved op => rw [hd] at h; exact nomatch h
    | readSink => cases h; exact .inr (.inr (.inl ⟨rest, rfl, rfl⟩))
    | clearSink => cases h; exact .inr (.inr (.inr (.inl ⟨rest, rfl, rfl⟩)))
    | loadSource bytes => cases h; exact .inr (.inr (.inr (.inr (.inl ⟨bytes, rest, rfl, rfl⟩))))
    | appendSource bytes => cases h; exact .inr (.inr (.inr (.inr (.inr (.inl ⟨bytes, rest, rfl, rfl⟩)))))
    | rewind => cases h; exact .inr (.inr (.inr (.inr (.inr (.inr (.inl ⟨rest, rfl, rfl⟩))))))
    | reset => cases h; exact .inr (.inr (.inr (.inr (.inr (.inr (.inr ⟨rest, rfl, rfl⟩))))))

end Sys2Proof.Machine
end

