-- ==== Sys2Proof/Laws/Width.lean ====
section
/-!
SUPPORT. What the width calculation of spec/42_bit_width_calculator.md R130 and R131 answers.
-/
namespace Sys2Proof.Machine

/-- Everything the scan can do: it stops at the highest set bit, or finds none. -/
theorem scanDown_cases (v : Value) (p : Nat) (hp : p ≤ 32) :
    (∃ q, q < p ∧ v.getLsbD q = true ∧ (∀ j, q < j → j < p → v.getLsbD j = false) ∧ scanDown v p = q + 1) ∨
      ((∀ j, j < p → v.getLsbD j = false) ∧ scanDown v p = 1) := by
  induction p with
  | zero => exact .inr ⟨fun j h => absurd h (by omega), rfl⟩
  | succ p ih =>
    unfold scanDown
    by_cases h : v.getLsbD p = true
    · exact .inl ⟨p, by omega, h, fun j h1 h2 => absurd h1 (by omega), if_pos h⟩
    · rw [if_neg h]
      have h' : v.getLsbD p = false := by simpa using h
      rcases ih (by omega) with ⟨q, h1, h2, h3, h4⟩ | ⟨h3, h4⟩
      · refine .inl ⟨q, by omega, h2, fun j hj1 hj2 => ?_, h4⟩
        by_cases hj : j = p
        · rw [hj, h']
        · exact h3 j hj1 (by omega)
      · refine .inr ⟨fun j hj2 => ?_, h4⟩
        by_cases hj : j = p
        · rw [hj, h']
        · exact h3 j (by omega)

/-- The width is the position of the highest set bit, and 1 for the value 0. -/
theorem bitWidth_cases (v : Value) :
    (∃ q, q < 32 ∧ v.getLsbD q = true ∧ (∀ j, q < j → v.getLsbD j = false) ∧ bitWidth v = q + 1) ∨
      (v = 0 ∧ bitWidth v = 1) := by
  rcases scanDown_cases v 32 (by omega) with ⟨q, h1, h2, h3, h4⟩ | ⟨h3, h4⟩
  · refine .inl ⟨q, h1, h2, fun j hj => ?_, h4⟩
    by_cases h : j < 32
    · exact h3 j hj h
    · exact BitVec.getLsbD_of_ge _ _ (by omega)
  · refine .inr ⟨?_, h4⟩
    apply BitVec.eq_of_getLsbD_eq; intro i hi; rw [h3 i hi]; simp

theorem toNat_lt_iff_getLsbD (v : Value) (w : Nat) : v.toNat < 2 ^ w ↔ ∀ j, w ≤ j → v.getLsbD j = false := by
  constructor
  · intro h j hj
    exact Nat.testBit_lt_two_pow (lt_of_lt_of_le h (Nat.pow_le_pow_right (by omega) hj))
  · intro h
    exact Nat.lt_pow_two_of_testBit _ (fun i hi => h i hi)

theorem bitWidth_bounds (v : Value) : 1 ≤ bitWidth v ∧ bitWidth v ≤ 32 ∧ v.toNat < 2 ^ bitWidth v := by
  rcases bitWidth_cases v with ⟨q, h1, h2, h3, h4⟩ | ⟨rfl, h4⟩
  · refine ⟨by omega, by omega, (toNat_lt_iff_getLsbD _ _).2 (fun j hj => h3 j (by omega))⟩
  · rw [h4]; decide

theorem widthOfHeader_ofNat (w : Nat) (h1 : 1 ≤ w) (h2 : w ≤ 32) : widthOfHeader (BitVec.ofNat 5 w) = w := by
  interval_cases w <;> decide

end Sys2Proof.Machine
end

