-- ==== Sys2Proof/Tests/Slice0.lean ====
section
/-!
SUPPORT. Tests of the model against words and vectors written out from the spec, and for every statement with hypotheses
a state and operands that meet them.
-/
namespace Sys2Proof.Tests

open Sys2Proof Sys2Proof.Machine

/-! ### Helpers -/

/-- The next state of an outcome. -/
def stateOf : Host.Outcome State Fault Refusal → Option State
  | .next s => some s
  | .fault _ => none
  | .refused _ => none

/-- The refusal of an outcome. -/
def refusalOf : Host.Outcome State Fault Refusal → Option Refusal
  | .next _ => none
  | .fault _ => none
  | .refused r => some r

/-- The state and the results of a run of commands. -/
def runOf : Host.Outcome (State × List Value) Fault Refusal → Option (State × List Value)
  | .next p => some p
  | .fault _ => none
  | .refused _ => none

/-- What spec/95_test_vectors.md shows of a writer command: result, sink, `w_buf`, `w_cnt`. -/
def writerView (o : Host.Outcome State Fault Refusal) : Option (Option Value × List Byte × Byte × Cnt) :=
  (stateOf o).map fun s => (s.result, s.sink, s.wBuf, s.wCnt)

/-- What spec/95_test_vectors.md shows of a reader command: result, `r_buf`, `r_cnt`, source. -/
def readerView (o : Host.Outcome State Fault Refusal) : Option (Option Value × Byte × Cnt × List Byte) :=
  (stateOf o).map fun s => (s.result, s.rBuf, s.rCnt, s.src)

/-- The reset state with a writer `buf/cnt`. -/
def withWriterAt (buf : Byte) (cnt : Cnt) : State := { State.reset with wBuf := buf, wCnt := cnt }

/-- The reset state with a reader `buf/cnt` and a source. -/
def withReaderAt (buf : Byte) (cnt : Cnt) (src : List Byte) : State :=
  { State.reset with rBuf := buf, rCnt := cnt, src := src }

/-- A state in which everything is in use: writer 05/3, reader FD/5. -/
def busy : State :=
  { wBuf := 0x05, wCnt := 3, rBuf := 0xFD, rCnt := 5, sink := [0xAA], src := [0x01, 0x80], port := [], result := some 7 }

/-- A stream pattern as the tables of spec/30_encoding.md print it: the first stream bit leftmost. -/
def pattern (text : String) : List Bool := (text.toList.filter (· ≠ ' ')).map (· == '1')

/-! ### Ill-formed instructions are refused (payloads wider than the element's bucket, R11) -/

theorem test_wellFormed_A_B :
    [Instr.elemA16 0x10000, .elemA28 0x10000000, .elemB13 0x2000, .elemB16 0x10000].all (fun i => !i.WellFormed) ∧
      [Instr.elemA16 0xFFFF, .elemA28 0xFFFFFFF, .elemB13 0x1FFF, .elemB16 0xFFFF, .elemB32 0xFFFFFFFF].all
        (fun i => i.WellFormed) := by decide

theorem test_wellFormed_C_refused :
    [Instr.elemC1 0x2, .elemC2 0x4, .elemC3 0x8, .elemC4 0x10, .elemC5 0x20, .elemC6 0x40,
      .elemC7 0x80, .elemC8 0x100, .elemC9 0x200, .elemC10 0x400, .elemC11 0x800, .elemC12 0x1000,
      .elemC13 0x2000, .elemC14 0x4000, .elemC15 0x8000, .elemC16 0x10000, .elemC17 0x20000, .elemC18 0x40000,
      .elemC19 0x80000, .elemC20 0x100000, .elemC21 0x200000, .elemC22 0x400000, .elemC23 0x800000, .elemC24 0x1000000,
      .elemC25 0x2000000, .elemC26 0x4000000, .elemC27 0x8000000, .elemC28 0x10000000, .elemC29 0x20000000, .elemC30 0x40000000,
      .elemC31 0x80000000].all
      (fun i => !i.WellFormed) := by decide

theorem test_wellFormed_C_widest :
    [Instr.elemC1 0x1, .elemC2 0x3, .elemC3 0x7, .elemC4 0xF, .elemC5 0x1F, .elemC6 0x3F,
      .elemC7 0x7F, .elemC8 0xFF, .elemC9 0x1FF, .elemC10 0x3FF, .elemC11 0x7FF, .elemC12 0xFFF,
      .elemC13 0x1FFF, .elemC14 0x3FFF, .elemC15 0x7FFF, .elemC16 0xFFFF, .elemC17 0x1FFFF, .elemC18 0x3FFFF,
      .elemC19 0x7FFFF, .elemC20 0xFFFFF, .elemC21 0x1FFFFF, .elemC22 0x3FFFFF, .elemC23 0x7FFFFF, .elemC24 0xFFFFFF,
      .elemC25 0x1FFFFFF, .elemC26 0x3FFFFFF, .elemC27 0x7FFFFFF, .elemC28 0xFFFFFFF, .elemC29 0x1FFFFFFF, .elemC30 0x3FFFFFFF,
      .elemC31 0x7FFFFFFF, .elemC32 0xFFFFFFFF].all
      (fun i => i.WellFormed) := by decide

/-! ### Decoding: command words written out from R60 and R63 (those of spec/95_test_vectors.md part 3) -/

theorem test_decode_commands :
    decode (.word 0x04300000005) = .instr (.wbits 0x5 3) ∧
    decode (.word 0x060DEADBEEF) = .instr (.wbits 0xDEADBEEF 32) ∧
    decode (.word 0x08000000000) = .instr .wflush ∧
    decode (.word 0x0C900000000) = .instr (.rbits 9) ∧
    decode (.word 0x10000000000) = .instr .rinit ∧
    decode (.word 0x140FFFFFFFF) = .instr (.bwidth 0xFFFFFFFF) ∧
    decode (.word 0x20010000000) = .instr (.encA 0x10000000) ∧
    decode (.word 0x24000001147) = .instr (.encB 0x1147) ∧
    decode (.word 0x28000000907) = .instr (.encC 0x907) ∧
    decode (.word 0x30000000000) = .instr .decA ∧
    decode (.word 0x34000000000) = .instr .decB ∧
    decode (.word 0x38000000000) = .instr .decC := by decide

/-- R61: every bit of the ignored fields set. -/
theorem test_decode_ignored_fields :
    decode (.word 0x0BFFFFFFFFF) = .instr .wflush ∧
    decode (.word 0x0FFFFFFFFFF) = .instr (.rbits 63) ∧
    decode (.word 0x13FFFFFFFFF) = .instr .rinit ∧
    decode (.word 0x17F00000067) = .instr (.bwidth 0x67) ∧
    decode (.word 0x23F00000067) = .instr (.encA 0x67) ∧
    decode (.word 0x3BFFFFFFFFF) = .instr .decC := by decide

/-- R64: the five reserved opcodes. -/
theorem test_decode_reserved :
    [0x00000000000, 0x18000000000, 0x1C000000000, 0x2C000000000, 0x3FFFFFFFFFF].map (fun w => decode (.word w)) =
      [.reserved 0x0, .reserved 0x6, .reserved 0x7, .reserved 0xB, .reserved 0xF] := by decide

/-- R66: in an assembled word every ignored field is 0. -/
theorem test_encode_commands :
    encode (.wbits 0x1FF 9) = .word 0x049000001FF ∧ encode .wflush = .word 0x08000000000 ∧
    encode (.rbits 32) = .word 0x0E000000000 ∧ encode (.encB 0x2000) = .word 0x24000002000 ∧
    encode .decA = .word 0x30000000000 := by decide

/-! ### Decoding: element patterns written out from R69, R70 and R71 -/

theorem test_decode_elements_A_B :
    decode (.element .a (pattern "1 0100 0000 0000 0001")) = .instr (.elemA16 0x8002) ∧
    decode (.element .a (pattern "0 0100 0000 0000 0000 0000 0000 0001")) = .instr (.elemA28 0x8000002) ∧
    decode (.element .b (pattern "1 0100 0000 0000 1")) = .instr (.elemB13 0x1002) ∧
    decode (.element .b (pattern "01 0100 0000 0000 0001")) = .instr (.elemB16 0x8002) ∧
    decode (.element .b (pattern "00 0100 0000 0000 0000 0000 0000 0000 0001")) = .instr (.elemB32 0x80000002) := by
  decide

theorem test_decode_elements_C1_C8 :
    decode (.element .c (pattern "10000 1")) = .instr (.elemC1 0x1) ∧
    decode (.element .c (pattern "01000 01")) = .instr (.elemC2 0x2) ∧
    decode (.element .c (pattern "11000 011")) = .instr (.elemC3 0x6) ∧
    decode (.element .c (pattern "00100 0101")) = .instr (.elemC4 0xA) ∧
    decode (.element .c (pattern "10100 01001")) = .instr (.elemC5 0x12) ∧
    decode (.element .c (pattern "01100 010001")) = .instr (.elemC6 0x22) ∧
    decode (.element .c (pattern "11100 0100001")) = .instr (.elemC7 0x42) ∧
    decode (.element .c (pattern "00010 01000001")) = .instr (.elemC8 0x82) := by decide

theorem test_decode_elements_C9_C16 :
    decode (.element .c (pattern "10010 010000001")) = .instr (.elemC9 0x102) ∧
    decode (.element .c (pattern "01010 0100000001")) = .instr (.elemC10 0x202) ∧
    decode (.element .c (pattern "11010 01000000001")) = .instr (.elemC11 0x402) ∧
    decode (.element .c (pattern "00110 010000000001")) = .instr (.elemC12 0x802) ∧
    decode (.element .c (pattern "10110 0100000000001")) = .instr (.elemC13 0x1002) ∧
    decode (.element .c (pattern "01110 01000000000001")) = .instr (.elemC14 0x2002) ∧
    decode (.element .c (pattern "11110 010000000000001")) = .instr (.elemC15 0x4002) ∧
    decode (.element .c (pattern "00001 0100000000000001")) = .instr (.elemC16 0x8002) := by decide

theorem test_decode_elements_C17_C24 :
    decode (.element .c (pattern "10001 01000000000000001")) = .instr (.elemC17 0x10002) ∧
    decode (.element .c (pattern "01001 010000000000000001")) = .instr (.elemC18 0x20002) ∧
    decode (.element .c (pattern "11001 0100000000000000001")) = .instr (.elemC19 0x40002) ∧
    decode (.element .c (pattern "00101 01000000000000000001")) = .instr (.elemC20 0x80002) ∧
    decode (.element .c (pattern "10101 010000000000000000001")) = .instr (.elemC21 0x100002) ∧
    decode (.element .c (pattern "01101 0100000000000000000001")) = .instr (.elemC22 0x200002) ∧
    decode (.element .c (pattern "11101 01000000000000000000001")) = .instr (.elemC23 0x400002) ∧
    decode (.element .c (pattern "00011 010000000000000000000001")) = .instr (.elemC24 0x800002) := by decide

theorem test_decode_elements_C25_C32 :
    decode (.element .c (pattern "10011 0100000000000000000000001")) = .instr (.elemC25 0x1000002) ∧
    decode (.element .c (pattern "01011 01000000000000000000000001")) = .instr (.elemC26 0x2000002) ∧
    decode (.element .c (pattern "11011 010000000000000000000000001")) = .instr (.elemC27 0x4000002) ∧
    decode (.element .c (pattern "00111 0100000000000000000000000001")) = .instr (.elemC28 0x8000002) ∧
    decode (.element .c (pattern "10111 01000000000000000000000000001")) = .instr (.elemC29 0x10000002) ∧
    decode (.element .c (pattern "01111 010000000000000000000000000001")) = .instr (.elemC30 0x20000002) ∧
    decode (.element .c (pattern "11111 0100000000000000000000000000001")) = .instr (.elemC31 0x40000002) ∧
    decode (.element .c (pattern "00000 01000000000000000000000000000001")) = .instr (.elemC32 0x80000002) := by decide

/-- R74: bits missing at the end read as 0; an element of no bits at all is the one of header 0. -/
theorem test_decode_short_streams :
    decode (.element .c (pattern "00001 11111111111")) = .instr (.elemC16 0x07FF) ∧
    decode (.element .a []) = .instr (.elemA28 0) ∧ decode (.element .b []) = .instr (.elemB32 0) ∧
    decode (.element .c []) = .instr (.elemC32 0) := by decide

/-! ### The opcode table's words -/

/-- The patterns above as numbers, their leftmost symbol the most significant bit. -/
theorem test_decodeTableWord :
    decodeTableWord 42 0x04300000005 = some (.wbits 0x5 3) ∧ decodeTableWord 48 0x0C900000000 = some (.rbits 9) ∧
    decodeTableWord 42 0x18000000000 = none ∧
    decodeTableWord 8 0xC3 = some (.elemC3 0x6) ∧ decodeTableWord 16 0xD201 = some (.elemC11 0x402) ∧
    decodeTableWord 24 0xCA0001 = some (.elemC19 0x40002) ∧ decodeTableWord 32 0xDA000001 = some (.elemC27 0x4000002) ∧
    decodeTableWord 17 0x10000 = some (.elemA16 0) ∧ decodeTableWord 29 0 = some (.elemA28 0) ∧
    decodeTableWord 14 0x2000 = some (.elemB13 0) ∧ decodeTableWord 18 0x10000 = some (.elemB16 0) ∧
    decodeTableWord 34 0 = some (.elemB32 0) ∧ decodeTableWord 37 0 = some (.elemC32 0) := by decide

/-- A word placed right after reset is what the next step runs. -/
theorem test_withFetchWord :
    stateOf (step (State.reset.withFetchWord 42 0x04300000005)) =
      some { State.reset with wBuf := 5, wCnt := 3, result := some 3 } ∧
    ((stateOf (step (State.reset.withFetchWord 8 0xC3))).map fun s => (s.result, s.src, s.rCnt)) =
      some (some 0x6, [], 0) ∧
    refusalOf (step (State.reset.withFetchWord 42 0x18000000000)) = some (.reservedOpcode 0x6) := by decide

/-! ### One step of each command (spec/95_test_vectors.md part 2; the vector is named) -/

set_option maxRecDepth 8000 in
/-- W7: the largest count, and W8: an unaligned write of 32 bits. -/
theorem test_wbits_clamped :
    writerView (exec (.wbits 0xDEADBEEF 63) State.reset) = some (some 32, [0xEF, 0xBE, 0xAD, 0xDE], 0x00, 0) := by decide
set_option maxRecDepth 8000 in
theorem test_wbits_unaligned :
    writerView (exec (.wbits 0xDEADBEEF 32) (withWriterAt 0x05 3)) =
      some (some 32, [0x7D, 0xF7, 0x6D, 0xF5], 0x06, 3) := by decide

/-- W3 and W18. -/
theorem test_wflush : writerView (exec .wflush (withWriterAt 0x01 1)) = some (none, [0x01], 0x00, 0) := by decide
theorem test_wflush_zero_octet : writerView (exec .wflush (withWriterAt 0x00 7)) = some (none, [0x00], 0x00, 0) := by
  decide

/-- RD2 and RD6. -/
theorem test_rbits_crosses_octets :
    readerView (exec (.rbits 6) (withReaderAt 0xFD 5 [0x01])) = some (some 0x3F, 0x01, 7, []) := by decide
theorem test_rbits_exhausted :
    readerView (exec (.rbits 12) (withReaderAt 0x00 0 [0xAB])) = some (some 0x0AB, 0xAB, 0, []) := by decide

/-- RD3. -/
theorem test_rinit : readerView (exec .rinit (withReaderAt 0x01 7 [0x55])) = some (none, 0x00, 0, [0x55]) := by decide

/-- The table of section B. -/
theorem test_bwidth_zero : stateOf (exec (.bwidth 0) busy) = some { busy with result := some 1 } := by decide
theorem test_bwidth :
    [0x00000001, 0x00000002, 0x00000067, 0x00001FFF, 0x00002000, 0x0CCC20D6, 0x80000000].map bitWidth =
      [1, 2, 7, 13, 14, 28, 32] := by decide

set_option maxRecDepth 8000 in
/-- Scheme A's table: 0x0000FFFF and 0xFFFFFFFF. -/
theorem test_encA : writerView (exec (.encA 0xFFFF) State.reset) = some (some 17, [0xFF, 0xFF], 0x01, 1) := by decide
set_option maxRecDepth 8000 in
theorem test_encA_truncates :
    writerView (exec (.encA 0xFFFFFFFF) State.reset) = some (some 29, [0xFE, 0xFF, 0xFF], 0x1F, 5) := by decide

set_option maxRecDepth 8000 in
/-- Scheme B's table: 0x00002000 and 0x80000000. -/
theorem test_encB : writerView (exec (.encB 0x2000) State.reset) = some (some 18, [0x02, 0x80], 0x00, 2) := by decide
set_option maxRecDepth 8000 in
theorem test_encB_wide :
    writerView (exec (.encB 0x80000000) State.reset) = some (some 34, [0x00, 0x00, 0x00, 0x00], 0x02, 2) := by decide

set_option maxRecDepth 8000 in
/-- Scheme C's table: 0x00010000 and 0x80000000. -/
theorem test_encC : writerView (exec (.encC 0x10000) State.reset) = some (some 22, [0x11, 0x00], 0x20, 6) := by decide
set_option maxRecDepth 8000 in
theorem test_encC_width_32 :
    writerView (exec (.encC 0x80000000) State.reset) = some (some 37, [0x00, 0x00, 0x00, 0x00], 0x10, 5) := by decide

/-- Scheme A's table, 0x0FFFFFFF, and X4. -/
theorem test_decA :
    readerView (exec .decA (withReaderAt 0x00 0 [0xFE, 0xFF, 0xFF, 0x1F])) = some (some 0x0FFFFFFF, 0x1F, 3, []) := by
  decide
theorem test_decA_non_canonical :
    readerView (exec .decA (withReaderAt 0x00 0 [0x0A, 0x00, 0x00, 0x00])) = some (some 0x5, 0x00, 3, []) := by decide

/-- Scheme B's table, 0x00002000, and X8. -/
theorem test_decB : readerView (exec .decB (withReaderAt 0x00 0 [0x02, 0x80, 0x00])) = some (some 0x2000, 0x00, 6, []) := by
  decide
theorem test_decB_short : readerView (exec .decB (withReaderAt 0x00 0 [0x8F])) = some (some 0x47, 0x8F, 0, []) := by decide

set_option maxRecDepth 8000 in
/-- Scheme C's table, 0xFFFFFFFF, and X7's first command. -/
theorem test_decC :
    readerView (exec .decC (withReaderAt 0x00 0 [0xE0, 0xFF, 0xFF, 0xFF, 0x1F])) =
      some (some 0xFFFFFFFF, 0x1F, 3, []) := by decide
theorem test_decC_short :
    readerView (exec .decC (withReaderAt 0x00 0 [0xF0, 0xFF])) = some (some 0x07FF, 0xFF, 0, []) := by decide

/-- R69 to R71, R75: an element fetched delivers its payload, non-canonical ones too (X4 to X6), and changes nothing
else. -/
theorem test_elements :
    [Instr.elemA16 0xFDEE, .elemA28 5, .elemB13 0x1147, .elemB16 0xFFFF, .elemB32 5, .elemC1 1, .elemC9 5,
        .elemC32 0x80000000].map (fun i => stateOf (exec i busy)) =
      [0xFDEE, 5, 0x1147, 0xFFFF, 5, 1, 5, 0x80000000].map (fun v => some { busy with result := some v }) := by decide

/-- P5's REWIND after ENC.B 0x1147: the source holds what the sink holds, and the six bits stay in the writer. -/
theorem test_rewind :
    stateOf (step { withWriterAt 0x22 6 with sink := [0x8F], port := [.rewind] }) =
      some { withWriterAt 0x22 6 with sink := [0x8F], src := [0x8F] } := by decide

/-- S1's sizes, R185. -/
theorem test_sample_set_bits :
    [Scheme.a, .b, .c].map (fun sch => sessionBits sch [0xFDEE, 0xA1, 0xEF2F, 0x2A3120E, 0x1147, 0xF1, 0x907, 0x13F7,
      0x3A3, 0x407, 0x67, 0xF25A, 0x41FB7E, 0x75B1C78, 0xCCC20D6]) = [303, 302, 309] := by decide

/-! ### The hypotheses of the statements can be met -/

theorem test_witness_ResetEmptiesTheFourRegisters : { busy with port := [.reset] }.port = .reset :: [] := by decide

theorem test_witness_ResetMeetsTheInvariants :
    ∃ t, { busy with port := [.reset] }.port = .reset :: [] ∧ step { busy with port := [.reset] } = .next t :=
  ⟨_, rfl, rfl⟩

theorem test_witness_EveryStepKeepsTheInvariants :
    (∃ t, { busy with port := [.issue 0x10000000000] }.Inv ∧ step { busy with port := [.issue 0x10000000000] } = .next t) ∧
      (busy.WriterInv ∧ busy.wCnt.toNat ≤ 3) ∧ ((withWriterAt 0 0).WriterInv ∧ (withWriterAt 0 0).wCnt = 0) :=
  ⟨⟨_, by decide, rfl⟩, by decide, by decide⟩

theorem test_witness_LegalPortNeverStops :
    { busy with port := [.issue 0x04300000005, .rewind, .issue 0x3BFFFFFFFFF] }.Safe := by decide

theorem test_witness_HostActionsTakeEffect :
    busy.port = [] ∧ { busy with port := [.readSink] }.port = .readSink :: [] ∧
      { busy with port := [.clearSink] }.port = .clearSink :: [] ∧
      { busy with port := [.loadSource [1]] }.port = .loadSource [1] :: [] ∧
      { busy with port := [.appendSource [1]] }.port = .appendSource [1] :: [] ∧
      { busy with port := [.rewind] }.port = .rewind :: [] ∧ { busy with port := [.reset] }.port = .reset :: [] := by
  decide

theorem test_witness_StepRunsTheDecodedCommand :
    { busy with port := [.issue 0x04300000005] }.port = .issue 0x04300000005 :: [] ∧
      decodeCommand 0x04300000005 = .instr (.wbits 5 3) := by decide

/-- Every reserved opcode, and the legal ones next to them. -/
theorem test_witness_ReservedOpcodesAreRefused :
    { busy with port := [.issue 0x18000000000] }.port = .issue 0x18000000000 :: [] ∧
      [0x00000000000, 0x18000000000, 0x1C000000000, 0x2C000000000, 0x3C000000000].all
        (fun w => opField w ∈ [0x0, 0x6, 0x7, 0xB, 0xF]) ∧
      [0x04000000000, 0x14000000000, 0x20000000000, 0x28000000000, 0x30000000000, 0x38000000000].all
        (fun w => opField w ∉ [0x0, 0x6, 0x7, 0xB, 0xF]) := by decide

theorem test_witness_PortRunsTheCommandsInOrder :
    (∀ i ∈ [Instr.wbits 0x1FF 9, .rbits 4, .bwidth 5], i.element? = none) ∧
      ∃ u results, runCommands [.wbits 0x1FF 9, .rbits 4, .bwidth 5] { busy with port := [.rewind] } =
        .next (u, results) :=
  ⟨by decide, _, _, rfl⟩

theorem test_witness_CommandsReturnTheirResults : busy.Inv ∧ (Instr.decB).element? = none := by decide

theorem test_witness_OpcodeMapSelectsTheCommand : (0xB : BitVec 4) ∈ [0x0, 0x6, 0x7, 0xB, (0xF : BitVec 4)] := by decide

/-- One pair of words for each format: Z, N, V and VN. -/
theorem test_witness_UnusedFieldsAreIgnored :
    (opField 0x08000000000 = opField 0x0BFFFFFFFFF ∧ opField 0x08000000000 ∈ [0x2, 0x4, 0xC, 0xD, 0xE]) ∧
      (opField 0x0C900000000 = opField 0x0C9FFFFFFFF ∧ opField 0x0C900000000 = 0x3 ∧
        nField 0x0C900000000 = nField 0x0C9FFFFFFFF) ∧
      (opField 0x14000000067 = opField 0x17F00000067 ∧ opField 0x14000000067 ∈ [0x5, 0x8, 0x9, 0xA] ∧
        valueField 0x14000000067 = valueField 0x17F00000067) ∧
      (opField 0x04300000005 = 0x1 ∧ nField 0x04300000005 = 3 ∧ valueField 0x04300000005 = 5) := by decide

theorem test_witness_DecodeUndoesEncode :
    (Instr.elemC5 31).WellFormed = true ∧ (Instr.elemB32 0xFFFFFFFF).WellFormed = true ∧
      (Instr.wbits 0xFFFFFFFF 63).WellFormed = true := by decide

theorem test_witness_ElementDecodesInFrontOfAnyStream :
    (Instr.elemC5 31).element? = some ⟨.c 5, 31⟩ ∧ (Instr.elemC5 31).WellFormed = true := by decide

theorem test_witness_ElementPatterns : (1 ≤ 1 ∧ 1 ≤ 31) ∧ (1 ≤ 31 ∧ 31 ≤ 31) := by decide

theorem test_witness_StreamBitsStandInTheirOctets : 0 < 8 ∧ 7 < 8 := by decide

theorem test_witness_WbitsClosedForm : busy.WriterInv ∧ min (32 : Count).toNat 32 = 32 := by decide

theorem test_witness_WbitsAppendsItsFieldToTheStream : busy.WriterInv := by decide

theorem test_witness_CountsAboveThirtyTwoBehaveAsThirtyTwo :
    32 < (33 : Count).toNat ∧ 32 < (63 : Count).toNat ∧ busy.WriterInv := by decide

theorem test_witness_WbitsOfNoBitsChangesNothing : busy.WriterInv := by decide

/-- R94's own pair. -/
theorem test_witness_WbitsIgnoresHighBits :
    (0xFFFFFFFF : Value).toNat % 2 ^ min (3 : Count).toNat 32 = (0x7 : Value).toNat % 2 ^ min (3 : Count).toNat 32 := by
  decide

theorem test_witness_WflushEmitsThePartialOctet :
    busy.WriterInv ∧ busy.wCnt ≠ 0 ∧ State.reset.WriterInv ∧ State.reset.wCnt = 0 := by decide

theorem test_witness_WflushIsIdempotent :
    (State.reset.WriterInv ∧ State.reset.wCnt = 0) ∧ ∃ t, exec .wflush busy = .next t :=
  ⟨by decide, _, rfl⟩

theorem test_witness_OctetsVisibleBeforeTheFlush :
    { busy with wBuf := 0, wCnt := 0 }.WriterInv ∧ { busy with wBuf := 0, wCnt := 0 }.wCnt = 0 := by decide

theorem test_witness_FlushedStreamSizeAndContent :
    ({ busy with wBuf := 0, wCnt := 0 }.WriterInv ∧ { busy with wBuf := 0, wCnt := 0 }.wCnt = 0) ∧
      (busy.WriterInv ∧ (31 : Count).toNat + (1 : Count).toNat ≤ 32) := by decide

theorem test_witness_WriterDependsOnItsRegistersAlone :
    isWriterCommand (.encC 0x67) = true ∧ (withWriterAt 5 3).wBuf = busy.wBuf ∧ (withWriterAt 5 3).wCnt = busy.wCnt ∧
      ∃ t, exec (.encC 0x67) busy = .next t :=
  ⟨rfl, rfl, rfl, _, rfl⟩

theorem test_witness_WriterCommandsLeaveTheReaderAlone :
    isWriterCommand .wflush = true ∧ ∃ t, exec .wflush busy = .next t := ⟨rfl, _, rfl⟩

theorem test_witness_RegistersOutsideTheInvariantsAreRefused :
    (¬ (withWriterAt 0x08 3).WriterInv ∧ ¬ (withWriterAt 0x00 8).WriterInv ∧ isWriterCommand (.encA 1) = true) ∧
      (¬ (withReaderAt 0x00 8 []).ReaderInv ∧ isReaderCommand .decC = true ∧ Instr.decC ≠ .rinit) := by decide

/-- One count for each clause: all bits buffered, enough octets, too few. -/
theorem test_witness_RbitsClosedForm :
    busy.ReaderInv ∧ min (5 : Count).toNat 32 ≤ busy.rCnt.toNat ∧
      (busy.rCnt.toNat < min (6 : Count).toNat 32 ∧
        min ((min (6 : Count).toNat 32 - busy.rCnt.toNat + 7) / 8) busy.src.length =
          (min (6 : Count).toNat 32 - busy.rCnt.toNat + 7) / 8) ∧
      (busy.rCnt.toNat < min (22 : Count).toNat 32 ∧
        min ((min (22 : Count).toNat 32 - busy.rCnt.toNat + 7) / 8) busy.src.length <
          (min (22 : Count).toNat 32 - busy.rCnt.toNat + 7) / 8) := by decide

theorem test_witness_RbitsTakesItsFieldFromTheStream : busy.ReaderInv := by decide

theorem test_witness_RbitsOfNoBitsChangesNothing : busy.ReaderInv := by decide

/-- RD6's state: eight bits left, twelve asked for. -/
theorem test_witness_ExhaustionIsNotSticky :
    (withReaderAt 0x00 0 [0xAB]).ReaderInv ∧ (withReaderAt 0x00 0 [0xAB]).unread.length < min (12 : Count).toNat 32 := by
  decide

theorem test_witness_SplitReadsAgree : busy.ReaderInv ∧ (31 : Count).toNat + (1 : Count).toNat ≤ 32 := by decide

/-- RD10's reads, all forty bits of the source. -/
theorem test_witness_OctetsConsumedByReads :
    (withReaderAt 0x00 0 [0xFF, 0xFF, 0xFF, 0xFF, 0xFF]).rCnt = 0 ∧
      bitTotal [(0, 3), (0, 32), (0, 5)] ≤ 8 * (withReaderAt 0x00 0 [0xFF, 0xFF, 0xFF, 0xFF, 0xFF]).src.length := by decide

/-- W1 and W2's fields, and the octets they make. -/
theorem test_witness_ReadsInvertWrites :
    State.reset.WriterInv ∧ State.reset.wCnt = 0 ∧ (withReaderAt 0x00 0 [0xFD, 0x01, 0x33]).rCnt = 0 ∧
      ((runOf (runCommands (writesOf [(0x5, 3), (0xFF, 6)] ++ [.wflush]) State.reset)).map fun p => p.1.sink) =
        some [0xFD, 0x01] ∧
      (withReaderAt 0x00 0 [0xFD, 0x01, 0x33]).src = [0xFD, 0x01] ++ [0x33] := by decide

theorem test_witness_RbitsDependsOnItsRegistersAndLeadingOctets :
    busy.ReaderInv ∧ (withReaderAt 0xFD 5 [0x01, 0x99]).rBuf = busy.rBuf ∧
      (withReaderAt 0xFD 5 [0x01, 0x99]).rCnt = busy.rCnt ∧
      (withReaderAt 0xFD 5 [0x01, 0x99]).src.take ((min (6 : Count).toNat 32 + 7) / 8) =
        busy.src.take ((min (6 : Count).toNat 32 + 7) / 8) := by decide

theorem test_witness_ReaderCommandsLeaveTheWriterAlone :
    (isReaderCommand .decA = true ∧ ∃ t, exec .decA busy = .next t) ∧
      isReaderCommand .rinit = true ∧ ∃ t, exec .rinit busy = .next t := ⟨⟨rfl, _, rfl⟩, rfl, _, rfl⟩

theorem test_witness_WriterAndReaderCommandsCommute :
    isWriterCommand (.wbits 0x3F 6) = true ∧ isReaderCommand .decB = true ∧ busy.Inv := by decide

theorem test_witness_SinkOnlyGrows :
    { busy with port := [.issue 0x060DEADBEEF] }.port.head? ≠ some .clearSink ∧
      ∃ t, step { busy with port := [.issue 0x060DEADBEEF] } = .next t := ⟨by decide, _, rfl⟩

/-- A power of two, one less, and 0. -/
theorem test_witness_BwidthReturnsTheSmallestWidth :
    ((0x2000 : Value) ≠ 0 ∧ (0x2000 : Value).toNat < 2 ^ 14) ∧ ((0x1FFF : Value) ≠ 0 ∧ (0x1FFF : Value).toNat < 2 ^ 13) ∧
      (0 : Value) = 0 := by decide

/-- 0x1147 has nineteen leading zeros; 0 has thirty-two, 0xFFFFFFFF none. -/
theorem test_witness_WidthIsThirtyTwoLessLeadingZeros :
    (∀ j, 13 ≤ j → j < 32 → (0x1147 : Value).getLsbD j = false) ∧ (0x1147 : Value).getLsbD 12 = true ∧
      (∀ j, 0 ≤ j → j < 32 → (0 : Value).getLsbD j = false) ∧ (0xFFFFFFFF : Value).getLsbD 31 = true :=
  ⟨fun j h1 h2 => by interval_cases j <;> decide, by decide, fun j _ h2 => by interval_cases j <;> decide, by decide⟩

theorem test_witness_BucketFitIsANumberBound :
    (0x1FFF : Value).toNat ≤ (0x2000 : Value).toNat ∧ (1 ≤ 1 ∧ 32 ≤ 32) ∧ (0x1FFF : Value).toNat ≤ 0x1FFF := by decide

theorem test_witness_EncAWritesHeaderAndPayload :
    busy.WriterInv ∧ bitWidth 0xFFFF ≤ 16 ∧ 16 < bitWidth 0x10000 := by decide

theorem test_witness_EncBWritesHeaderAndPayload :
    busy.WriterInv ∧ bitWidth 0x1FFF ≤ 13 ∧ (13 < bitWidth 0x2000 ∧ bitWidth 0x2000 ≤ 16) ∧
      (13 < bitWidth 0xFFFF ∧ bitWidth 0xFFFF ≤ 16) ∧ 16 < bitWidth 0x10000 := by decide

theorem test_witness_EncCWritesHeaderAndPayload : busy.WriterInv := by decide

theorem test_witness_DecAReadsHeaderAndPayload : busy.ReaderInv := by decide

/-- A source that begins with a 1, and one that begins with a 0. -/
theorem test_witness_DecBReadsHeaderAndPayload :
    (withReaderAt 0 0 [0x8F]).ReaderInv ∧ (readBits 1 (withReaderAt 0 0 [0x8F])).1 = 1 ∧
      (withReaderAt 0 0 [0x02]).ReaderInv ∧ (readBits 1 (withReaderAt 0 0 [0x02])).1 ≠ 1 := by decide

theorem test_witness_DecCReadsHeaderAndPayload : busy.ReaderInv := by decide

theorem test_witness_EncResultIsTheElementLength : busy.WriterInv := by decide

theorem test_witness_DecOnAnExhaustedSourceReturnsZero :
    (withReaderAt 0xAB 0 []).rCnt = 0 ∧ (withReaderAt 0xAB 0 []).src = [] := by decide

theorem test_witness_ElementsDeliverTheirPayload :
    (Instr.elemB13 0x1FFF).element? = some ⟨.b13, 0x1FFF⟩ ∧ (Instr.elemB13 0x1FFF).WellFormed = true := by decide

theorem test_witness_DecExecutesTheElementOfTheStream : busy.ReaderInv := by decide

/-- A writer that holds three bits, and a reader positioned behind them in the octets pushed (R151). -/
theorem test_witness_ElementRoundTrip :
    (withWriterAt 0x05 3).WriterInv ∧
      ((runOf (runCommands [.encC 0x67, .wflush] (withWriterAt 0x05 3))).map fun p => p.1.sink) = some [0x3D, 0x67] ∧
      (withReaderAt 0x3D 5 [0x67]).ReaderInv ∧
      (withReaderAt 0x3D 5 [0x67]).unread = (streamBits [0x3D, 0x67]).drop (withWriterAt 0x05 3).wCnt.toNat ++ [] := by
  decide

set_option maxRecDepth 8000 in
/-- P2's values and octets. -/
theorem test_witness_SessionRoundTrip :
    State.reset.WriterInv ∧ State.reset.wCnt = 0 ∧
      ((runOf (runCommands (Pseudo.encode .b [0x1FFF, 0x2000]).expand State.reset)).map fun p => p.1.sink) =
        some [0xFF, 0xBF, 0x00, 0x20] ∧
      (withReaderAt 0x55 3 [0xFF, 0xBF, 0x00, 0x20, 0x77]).src = [0xFF, 0xBF, 0x00, 0x20] ++ [0x77] := by decide

theorem test_witness_SessionSize : State.reset.WriterInv ∧ State.reset.wCnt = 0 := by decide

theorem test_witness_SessionContent : State.reset.WriterInv ∧ State.reset.wCnt = 0 := by decide

theorem test_witness_DecodeAlwaysReturnsItsCount : { busy with src := [] }.src = [] := by decide

end Sys2Proof.Tests
end

/-! ## The command port: commands do not look at it, and it runs them in order -/

namespace Sys2Proof.Machine

/-! ### The fields of a command word, and the command it decodes to (R60, R63) -/

theorem cmdWord_toNat (op : BitVec 4) (n : Count) (v : Value) :
    (cmdWord op n v).toNat = op.toNat * 2 ^ 38 + n.toNat * 2 ^ 32 + v.toNat := by
  have hop := op.isLt
  have hn := n.isLt
  have hv := v.isLt
  rw [cmdWord, BitVec.toNat_ofNat, Nat.mod_eq_of_lt (by omega)]

@[simp] theorem opField_cmdWord (op : BitVec 4) (n : Count) (v : Value) : opField (cmdWord op n v) = op := by
  have hn := n.isLt
  have hv := v.isLt
  apply BitVec.eq_of_toNat_eq
  rw [opField, BitVec.extractLsb'_toNat, cmdWord_toNat, Nat.shiftRight_eq_div_pow]
  omega

@[simp] theorem nField_cmdWord (op : BitVec 4) (n : Count) (v : Value) : nField (cmdWord op n v) = n := by
  have hv := v.isLt
  apply BitVec.eq_of_toNat_eq
  rw [nField, BitVec.extractLsb'_toNat, cmdWord_toNat, Nat.shiftRight_eq_div_pow]
  omega

@[simp] theorem valueField_cmdWord (op : BitVec 4) (n : Count) (v : Value) : valueField (cmdWord op n v) = v := by
  apply BitVec.eq_of_toNat_eq
  rw [valueField, BitVec.extractLsb'_toNat, cmdWord_toNat, Nat.shiftRight_eq_div_pow]
  omega

/-- The word of a command decodes to the command; an element has no word (R63, R66). -/
theorem decodeCommand_commandWord (i : Instr) (h : i.element? = none) : decodeCommand (commandWord i) = .instr i := by
  cases i with
  | wbits | wflush | rbits | rinit | bwidth | encA | encB | encC | decA | decB | decC =>
    simp [commandWord, encode, decodeCommand]
  | _ => exact nomatch h

/-! ### A state with another port

The operations neither read nor write the port, so each commutes with replacing it. -/

/-- The state with the host actions `p` to come. -/
def State.withPort (s : State) (p : List HostAction) : State := { s with port := p }

@[simp] theorem withPort_port (s : State) : s.withPort s.port = s := rfl
@[simp] theorem port_withPort (s : State) (p : List HostAction) : (s.withPort p).port = p := rfl
@[simp] theorem withPort_withPort (s : State) (p q : List HostAction) : (s.withPort p).withPort q = s.withPort q := rfl

theorem writeBit_withPort (bit : Bool) (s : State) (p : List HostAction) :
    writeBit bit (s.withPort p) = (writeBit bit s).withPort p := by
  simp only [writeBit, apply_ite (State.withPort · p)]
  rfl

theorem writeBits_withPort (v : Value) (k : Nat) (s : State) (p : List HostAction) :
    writeBits v k (s.withPort p) = (writeBits v k s).withPort p := by
  rw [writeBits, writeBits]
  exact List.foldl_hom (State.withPort · p) fun t i => writeBit_withPort (v.getLsbD i) t p

theorem emitElement_withPort (e : Element) (s : State) (p : List HostAction) :
    emitElement e (s.withPort p) = (emitElement e s).withPort p := by
  simp only [emitElement, writeBits_withPort]

theorem flushWriter_withPort (s : State) (p : List HostAction) :
    flushWriter (s.withPort p) = (flushWriter s).withPort p := by
  have pushed : (if s.wCnt ≠ 0 then sinkPush s.wBuf (s.withPort p) else s.withPort p) =
      (if s.wCnt ≠ 0 then sinkPush s.wBuf s else s).withPort p :=
    (apply_ite (State.withPort · p) (s.wCnt ≠ 0) (sinkPush s.wBuf s) s).symm
  exact congrArg (fun t : State => { t with wBuf := 0, wCnt := 0 }) pushed

theorem readBit_withPort (s : State) (p : List HostAction) :
    readBit (s.withPort p) = ((readBit s).1, (readBit s).2.withPort p) := by
  by_cases hc : s.rCnt = 0
  · cases hs : s.src <;> simp only [readBit, srcPop, consumeBit, State.withPort, hc, hs, if_true]
  · simp only [readBit, consumeBit, State.withPort, hc, if_false]

theorem readBits_withPort (k : Nat) (s : State) (p : List HostAction) :
    readBits k (s.withPort p) = ((readBits k s).1, (readBits k s).2.withPort p) := by
  have turn (st : Value × State) (i : Nat) :
      readTurn (Prod.map id (State.withPort · p) st) i = Prod.map id (State.withPort · p) (readTurn st i) := by
    simp [readTurn, readBit_withPort]
  exact List.foldl_hom (Prod.map id (State.withPort · p)) turn (l := List.range (clampCount k)) (init := (0, s))

theorem fetchPayload_withPort (b : Bucket) (s : State) (p : List HostAction) :
    fetchPayload b (s.withPort p) = ((fetchPayload b s).1, (fetchPayload b s).2.withPort p) := by
  simp only [fetchPayload, readBits_withPort]

theorem fetchElement_withPort (sch : Scheme) (s : State) (p : List HostAction) :
    fetchElement sch (s.withPort p) = ((fetchElement sch s).1, (fetchElement sch s).2.withPort p) := by
  cases sch with
  | a =>
    simp only [fetchElement_a, readBits_withPort, fetchPayload_withPort]
    split <;> rfl
  | b =>
    simp only [fetchElement_b, readBits_withPort, fetchPayload_withPort]
    split
    · rfl
    · split <;> rfl
  | c => simp only [fetchElement_c, readBits_withPort, fetchPayload_withPort]

/-! ### A command with another port -/

section
variable {s t : State} (p : List HostAction)

theorem encodeInto_withPort {b : Bucket} {v : Value} (h : encodeInto b v s = .next t) :
    encodeInto b v (s.withPort p) = .next (t.withPort p) := by
  obtain ⟨hi, hr⟩ := withWriter_next h
  rw [encodeInto, withWriter_of (s.withPort p) hi, emitElement_withPort, complete_next hr]
  rfl

theorem decodeFrom_withPort {sch : Scheme} (h : decodeFrom sch s = .next t) :
    decodeFrom sch (s.withPort p) = .next (t.withPort p) := by
  obtain ⟨hi, hr⟩ := withReader_next h
  rw [decodeFrom, withReader_of (s.withPort p) hi, fetchElement_withPort, complete_next hr]
  rfl

/-- A command that completes does so whatever the port holds, with the same effect on everything else (R14). -/
theorem exec_withPort {i : Instr} (hi : i.element? = none) (h : exec i s = .next t) :
    exec i (s.withPort p) = .next (t.withPort p) := by
  cases i with
  | wbits v n =>
    obtain ⟨hw, hr⟩ := withWriter_next h
    rw [exec_wbits (s.withPort p) v n hw, writeBits_withPort, complete_next hr]
    rfl
  | wflush =>
    obtain ⟨hw, hr⟩ := withWriter_next h
    rw [exec_wflush (s.withPort p) hw, flushWriter_withPort, complete_next hr]
    rfl
  | rbits n =>
    obtain ⟨hw, hr⟩ := withReader_next h
    rw [exec_rbits (s.withPort p) n hw, readBits_withPort, complete_next hr]
    rfl
  | rinit | bwidth => rw [complete_next h]; rfl
  | encA | encB | encC => exact encodeInto_withPort p h
  | decA | decB | decC => exact decodeFrom_withPort p h
  | _ => exact nomatch hi

end

/-- A command leaves the port as it is. -/
theorem exec_port {i : Instr} {s t : State} (hi : i.element? = none) (h : exec i s = .next t) : t.port = s.port := by
  have hs : exec i s = .next (t.withPort s.port) := exec_withPort s.port hi h
  have ht : t = t.withPort s.port := Host.Outcome.next.inj (h.symm.trans hs)
  rw [ht, port_withPort]

/-! ### The port's steps -/

/-- A step whose next host action issues a command's word executes the command behind that action. -/
theorem step_issue_commandWord {i : Instr} (hi : i.element? = none) (s : State) (rest : List HostAction) :
    step (s.withPort (.issue (commandWord i) :: rest)) = exec i (s.withPort rest) := by
  simp only [step, nextAction, port_withPort, decodeCommand_commandWord i hi]
  rfl

/-- The core's steps over the ISSUE actions of a list of commands leave what running the commands leaves. -/
theorem run_issueAll {commands : List Instr} {s u : State} {rest : List HostAction} {results : List Value}
    (hc : ∀ i ∈ commands, i.element? = none) (h : runCommands commands (s.withPort rest) = .next (u, results)) :
    core.run commands.length (s.withPort (issueAll commands ++ rest)) = .next u := by
  induction commands generalizing s results with
  | nil => cases h; rfl
  | cons i is ih =>
    obtain ⟨hi, his⟩ := List.forall_mem_cons.1 hc
    obtain ⟨t, later, ht, hrun, -⟩ := runCommands_cons_next h
    have hport : t.port = rest := exec_port hi ht
    have hrest : runCommands is (t.withPort rest) = .next (u, later) := by rwa [← hport, withPort_port]
    have hexec := exec_withPort (issueAll is ++ rest) hi ht
    rw [withPort_withPort] at hexec
    have hstep : step (s.withPort (issueAll (i :: is) ++ rest)) = .next (t.withPort (issueAll is ++ rest)) :=
      (step_issue_commandWord hi s _).trans hexec
    exact (run_succ core is.length _ _ hstep).trans (ih his hrest)

/-- Settles O8, by induction on the commands: an ISSUE action's step is the command's `exec`, which neither reads nor
writes the port. -/
theorem portRunsTheCommandsInOrder : Obligations.PortRunsTheCommandsInOrder :=
  fun _ _ _ _ _ hc h => run_issueAll hc h

end Sys2Proof.Machine

/-! ## The state between commands: its invariants, and what the writer and the reader leave to each other -/

namespace Sys2Proof.Machine

/-! ### The two halves of the state -/

/-- The two states agree in what the writer's operations work on. -/
structure SameWriter (s t : State) : Prop where
  wBuf : t.wBuf = s.wBuf
  wCnt : t.wCnt = s.wCnt
  sink : t.sink = s.sink

/-- The two states agree in what the reader's operations work on. -/
structure SameReader (s t : State) : Prop where
  rBuf : t.rBuf = s.rBuf
  rCnt : t.rCnt = s.rCnt
  src : t.src = s.src

theorem writerInv_of_eq {s t : State} (hb : t.wBuf = s.wBuf) (hc : t.wCnt = s.wCnt) (hs : s.WriterInv) :
    t.WriterInv := by
  rwa [State.WriterInv, hb, hc]

theorem SameReader.readerInv {s t : State} (h : SameReader s t) (hs : s.ReaderInv) : t.ReaderInv := by
  rwa [State.ReaderInv, h.rCnt]

/-! ### What the body of a writer command does -/

/-- The body of a writer command: it keeps the writer invariant, touches only the writer's registers and the sink, and
what it pushes and leaves in the registers depends on the writer's registers alone (R23, R29, R102). -/
structure WriterOp (body : State → State) : Prop where
  inv {s : State} : s.WriterInv → (body s).WriterInv
  same {s : State} : s.WriterInv → SameButWriter s (body s)
  pushes {s s' : State} : s.WriterInv → s'.wBuf = s.wBuf → s'.wCnt = s.wCnt →
    ∃ pushed, (body s).sink = s.sink ++ pushed ∧ (body s').sink = s'.sink ++ pushed ∧
      (body s').wBuf = (body s).wBuf ∧ (body s').wCnt = (body s).wCnt

theorem writerOp_foldl_writeBit (bits : List Bool) : WriterOp fun s => bits.foldl (fun t b => writeBit b t) s where
  inv h := (foldl_writeBit bits _ h).1
  same h := (foldl_writeBit bits _ h).2.2
  pushes {s s'} h hb hc := by
    have h' := writerInv_of_eq hb hc h
    rw [foldl_writeBit_closed bits s h, foldl_writeBit_closed bits s' h', hb, hc]
    exact ⟨_, rfl, rfl, rfl, rfl⟩

theorem writerOp_writeBits (v : Value) (k : Nat) : WriterOp (writeBits v k) := by
  rw [funext (writeBits_eq_foldl v k)]
  exact writerOp_foldl_writeBit _

theorem writerOp_emitElement (e : Element) : WriterOp (emitElement e) := by
  rw [funext (emitElement_eq_foldl e)]
  exact writerOp_foldl_writeBit _

theorem writerOp_flushWriter : WriterOp flushWriter where
  inv _ := flushWriter_writerInv _
  same _ := flushWriter_same _
  pushes {s s'} _ hb hc := by
    refine ⟨if s.wCnt ≠ 0 then [s.wBuf] else [], ?_, ?_, rfl, rfl⟩
    · rw [flushWriter_sink]; split <;> simp
    · rw [flushWriter_sink, hb, hc]; split <;> simp

/-- Every writer command completes with a writer's body, in a state of the writer invariant (R38, R43). -/
theorem exec_of_isWriterCommand {i : Instr} (h : isWriterCommand i = true) :
    ∃ body r, WriterOp body ∧ ∀ s, exec i s = withWriter s (complete r (body s)) := by
  cases i with
  | wbits v n => exact ⟨_, _, writerOp_writeBits v n.toNat, fun _ => rfl⟩
  | wflush => exact ⟨_, _, writerOp_flushWriter, fun _ => rfl⟩
  | encA v => exact ⟨_, _, writerOp_emitElement ⟨selectA v, v⟩, fun _ => rfl⟩
  | encB v => exact ⟨_, _, writerOp_emitElement ⟨selectB v, v⟩, fun _ => rfl⟩
  | encC v => exact ⟨_, _, writerOp_emitElement ⟨selectC v, v⟩, fun _ => rfl⟩
  | _ => exact nomatch h

/-! ### What the body of a reader command does -/

theorem SameReader.unread {s t : State} (h : SameReader s t) : t.unread = s.unread := by
  rw [State.unread, State.unread, State.bufferedBits, State.bufferedBits, h.rBuf, h.rCnt, h.src]

theorem SameReader.pulledOctets {s t : State} (h : SameReader s t) (k : Nat) :
    pulledOctets t k = Machine.pulledOctets s k := by
  rw [Machine.pulledOctets, Machine.pulledOctets, h.rCnt, h.src]

/-- The body of a reader command, with what it reads: it keeps the reader invariant, touches only the reader's registers
and the source, takes octets from the source's front alone, and depends on nothing but these (R26, R29). -/
structure ReaderOp {α : Type} (body : State → α × State) : Prop where
  inv {s : State} : s.ReaderInv → (body s).2.ReaderInv
  same {s : State} : s.ReaderInv → SameButReader s (body s).2
  drops {s : State} : s.ReaderInv → (body s).2.src <:+ s.src
  reads {s s' : State} : s.ReaderInv → SameReader s s' →
    (body s').1 = (body s).1 ∧ SameReader (body s).2 (body s').2

namespace ReaderOp

variable {α β : Type} {body : State → α × State}

/-- A reader's body followed by one chosen by what the first has read. -/
theorem bind {next : α → State → β × State} (hb : ReaderOp body) (hn : ∀ a, ReaderOp (next a)) :
    ReaderOp fun s => next (body s).1 (body s).2 where
  inv h := (hn _).inv (hb.inv h)
  same h := (hb.same h).trans' ((hn _).same (hb.inv h))
  drops h := ((hn _).drops (hb.inv h)).trans (hb.drops h)
  reads {s s'} h hs := by
    obtain ⟨hval, hrest⟩ := hb.reads h hs
    rw [hval]
    exact (hn _).reads (hb.inv h) hrest

theorem map (f : α → β) (hb : ReaderOp body) : ReaderOp fun s => (f (body s).1, (body s).2) where
  inv := hb.inv
  same := hb.same
  drops := hb.drops
  reads h hs := ⟨congrArg f (hb.reads h hs).1, (hb.reads h hs).2⟩

theorem ite (p : Prop) [Decidable p] {other : State → α × State} (hb : ReaderOp body) (ho : ReaderOp other) :
    ReaderOp fun s => if p then body s else other s := by
  by_cases hp : p
  · simpa only [if_pos hp] using hb
  · simpa only [if_neg hp] using ho

end ReaderOp

theorem readerOp_initReader : ReaderOp fun s => ((none : Option Value), initReader s) where
  inv _ := Nat.zero_le 7
  same _ := ⟨rfl, rfl, rfl, rfl, rfl⟩
  drops _ := List.suffix_rfl
  reads _ hs := ⟨rfl, rfl, rfl, hs.src⟩

theorem readerOp_readBits (k : Nat) : ReaderOp (readBits k) where
  inv h := readBits_readerInv k _ h
  same h := readBits_same k _ h
  drops h := by
    rw [readBits_state k _ h]
    exact List.drop_suffix _ _
  reads {s s'} h hs := by
    have h' := hs.readerInv h
    rw [readBits_value k s h, readBits_value k s' h', readBits_state k s h, readBits_state k s' h', hs.unread,
      hs.pulledOctets, hs.rBuf, hs.rCnt, hs.src]
    exact ⟨rfl, rfl, rfl, rfl⟩

theorem readerOp_fetchPayload (b : Bucket) : ReaderOp (fetchPayload b) :=
  (readerOp_readBits b.payloadBits).map fun p => (⟨b, p⟩ : Element)

/-- The fetch of each scheme reads header fields, then the payload of the bucket they choose (R141). -/
theorem readerOp_fetchElement (sch : Scheme) : ReaderOp (fetchElement sch) := by
  have payload := readerOp_fetchPayload
  cases sch with
  | a =>
    rw [funext fetchElement_a]
    exact (readerOp_readBits 1).bind (next := fun h t => if h = 1 then fetchPayload .a16 t else fetchPayload .a28 t)
      fun h => .ite _ (payload _) (payload _)
  | b =>
    have second := (readerOp_readBits 1).bind
      (next := fun h t => if h = 1 then fetchPayload .b16 t else fetchPayload .b32 t)
      fun h => .ite _ (payload _) (payload _)
    rw [funext fetchElement_b]
    exact (readerOp_readBits 1).bind (next := fun h t => if h = 1 then fetchPayload .b13 t else
      if (readBits 1 t).1 = 1 then fetchPayload .b16 (readBits 1 t).2 else fetchPayload .b32 (readBits 1 t).2)
      fun h => .ite _ (payload _) second
  | c =>
    rw [funext fetchElement_c]
    exact (readerOp_readBits 5).bind (next := fun h => fetchPayload (.c (h.setWidth 5))) fun h => payload _

/-- What a DEC command reads: the payload of the element it fetches, as wide as its bucket (R141, R148). -/
def readElement (sch : Scheme) (s : State) : Option Value × State :=
  (some (BitVec.ofNat 32 ((fetchElement sch s).1.payload.toNat % 2 ^ (fetchElement sch s).1.bucket.payloadBits)),
    (fetchElement sch s).2)

theorem decodeFrom_eq_readElement (sch : Scheme) (s : State) :
    decodeFrom sch s = withReader s (complete (readElement sch s).1 (readElement sch s).2) := by
  rw [decodeFrom, deliverElement, readElement]

theorem readerOp_readElement (sch : Scheme) : ReaderOp (readElement sch) :=
  (readerOp_fetchElement sch).map fun e : Element => some (BitVec.ofNat 32 (e.payload.toNat % 2 ^ e.bucket.payloadBits))

/-- Every reader command but RINIT completes with a reader's body, in a state of the reader invariant (R38, R43). -/
theorem exec_of_isReaderCommand {i : Instr} (h : isReaderCommand i = true) (hi : i ≠ .rinit) :
    ∃ body : State → Option Value × State, ReaderOp body ∧
      ∀ s, exec i s = withReader s (complete (body s).1 (body s).2) := by
  cases i with
  | rbits n => exact ⟨_, (readerOp_readBits n.toNat).map some, fun _ => rfl⟩
  | rinit => exact absurd rfl hi
  | decA => exact ⟨_, readerOp_readElement .a, decodeFrom_eq_readElement .a⟩
  | decB => exact ⟨_, readerOp_readElement .b, decodeFrom_eq_readElement .b⟩
  | decC => exact ⟨_, readerOp_readElement .c, decodeFrom_eq_readElement .c⟩
  | _ => exact nomatch h

theorem exec_rinit (s : State) : exec .rinit s = .next { initReader s with result := none } := rfl

/-- Under the reader invariant every reader command, RINIT included, completes with a reader's body. -/
theorem exec_of_isReaderCommand_of_readerInv {i : Instr} (h : isReaderCommand i = true) :
    ∃ body : State → Option Value × State, ReaderOp body ∧
      ∀ s, s.ReaderInv → exec i s = complete (body s).1 (body s).2 := by
  by_cases hi : i = .rinit
  · subst hi
    exact ⟨_, readerOp_initReader, fun s _ => exec_rinit s⟩
  · obtain ⟨body, hb, he⟩ := exec_of_isReaderCommand h hi
    exact ⟨body, hb, fun s hs => (he s).trans (withReader_of s hs _)⟩

/-- An instruction of neither the writer nor the reader only returns a result: BWIDTH and the elements (R132, R141). -/
theorem exec_of_neither {i : Instr} (hw : isWriterCommand i = false) (hr : isReaderCommand i = false) :
    ∃ r, ∀ s, exec i s = complete r s := by
  cases i with
  | wbits | wflush | encA | encB | encC => exact nomatch hw
  | rbits | rinit | decA | decB | decC => exact nomatch hr
  | _ => exact ⟨_, fun _ => rfl⟩

/-! ### What a command that completes has done -/

section
variable {i : Instr} {s t : State}

theorem writerCommand_next (hi : isWriterCommand i = true) (h : exec i s = .next t) :
    t.WriterInv ∧ SameReader s t ∧ t.port = s.port ∧ ∃ pushed, t.sink = s.sink ++ pushed := by
  obtain ⟨body, r, hb, he⟩ := exec_of_isWriterCommand hi
  obtain ⟨hs, hc⟩ := withWriter_next ((he s).symm.trans h)
  obtain ⟨pushed, hp, -⟩ := hb.pushes hs rfl rfl
  have hsame := hb.same hs
  rw [complete_next hc]
  exact ⟨hb.inv hs, ⟨hsame.rBuf, hsame.rCnt, hsame.src⟩, hsame.port, pushed, hp⟩

theorem readerCommand_next (hi : isReaderCommand i = true) (h : exec i s = .next t) :
    t.ReaderInv ∧ SameWriter s t ∧ t.port = s.port ∧ t.src <:+ s.src := by
  by_cases hr : i = .rinit
  · subst hr
    rw [complete_next h]
    exact ⟨Nat.zero_le 7, ⟨rfl, rfl, rfl⟩, rfl, List.suffix_rfl⟩
  · obtain ⟨body, hb, he⟩ := exec_of_isReaderCommand hi hr
    obtain ⟨hs, hc⟩ := withReader_next ((he s).symm.trans h)
    have hsame := hb.same hs
    rw [complete_next hc]
    exact ⟨hb.inv hs, ⟨hsame.wBuf, hsame.wCnt, hsame.sink⟩, hsame.port, hb.drops hs⟩

theorem writerCommand_completes (hi : isWriterCommand i = true) (hs : s.WriterInv) : ∃ t, exec i s = .next t := by
  obtain ⟨body, r, -, he⟩ := exec_of_isWriterCommand hi
  exact ⟨_, (he s).trans (withWriter_of s hs _)⟩

theorem readerCommand_completes (hi : isReaderCommand i = true) (hs : s.ReaderInv) : ∃ t, exec i s = .next t := by
  obtain ⟨body, -, he⟩ := exec_of_isReaderCommand_of_readerInv hi
  exact ⟨_, he s hs⟩

/-- A writer command depends on the writer's registers alone (R102). -/
theorem writerCommand_depends {s' : State} (hi : isWriterCommand i = true) (hb : s'.wBuf = s.wBuf)
    (hc : s'.wCnt = s.wCnt) (h : exec i s = .next t) :
    ∃ t' pushed, exec i s' = .next t' ∧ t.sink = s.sink ++ pushed ∧ t'.sink = s'.sink ++ pushed ∧
      t'.wBuf = t.wBuf ∧ t'.wCnt = t.wCnt ∧ t'.result = t.result := by
  obtain ⟨body, r, hop, he⟩ := exec_of_isWriterCommand hi
  obtain ⟨hs, hr⟩ := withWriter_next ((he s).symm.trans h)
  have hs' := writerInv_of_eq hb hc hs
  obtain ⟨pushed, hp, hp', hbuf, hcnt⟩ := hop.pushes hs hb hc
  rw [complete_next hr]
  exact ⟨_, pushed, (he s').trans (withWriter_of s' hs' _), hp, hp', hbuf, hcnt, rfl⟩

/-- A reader command depends on the reader's registers and the source alone (R122). -/
theorem readerCommand_depends {s' : State} (hi : isReaderCommand i = true) (hs : s.ReaderInv) (hss : SameReader s s')
    (h : exec i s = .next t) : ∃ t', exec i s' = .next t' ∧ SameReader t t' ∧ t'.result = t.result := by
  obtain ⟨body, hop, he⟩ := exec_of_isReaderCommand_of_readerInv hi
  obtain ⟨hval, hrest⟩ := hop.reads hs hss
  rw [complete_next ((he s hs).symm.trans h)]
  exact ⟨_, he s' (hss.readerInv hs), ⟨hrest.rBuf, hrest.rCnt, hrest.src⟩, hval⟩

/-- Everything an instruction that completes can be: a writer command, a reader command, or one that only returns. -/
theorem exec_next_cases (h : exec i s = .next t) :
    isWriterCommand i = true ∨ isReaderCommand i = true ∨ ∃ r, t = { s with result := r } := by
  cases hw : isWriterCommand i with
  | true => exact .inl rfl
  | false =>
    cases hr : isReaderCommand i with
    | true => exact .inr (.inl rfl)
    | false =>
      obtain ⟨r, he⟩ := exec_of_neither hw hr
      exact .inr (.inr ⟨r, complete_next ((he s).symm.trans h)⟩)

theorem exec_inv (hs : s.Inv) (h : exec i s = .next t) : t.Inv := by
  obtain hw | hr | ⟨r, rfl⟩ := exec_next_cases h
  · obtain ⟨hinv, hsame, -⟩ := writerCommand_next hw h
    exact ⟨hinv, hsame.readerInv hs.2⟩
  · obtain ⟨hinv, hsame, -⟩ := readerCommand_next hr h
    exact ⟨writerInv_of_eq hsame.wBuf hsame.wCnt hs.1, hinv⟩
  · exact hs

theorem exec_sink_grows (h : exec i s = .next t) : ∃ pushed, t.sink = s.sink ++ pushed := by
  obtain hw | hr | ⟨r, rfl⟩ := exec_next_cases h
  · obtain ⟨-, -, -, hpushed⟩ := writerCommand_next hw h
    exact hpushed
  · obtain ⟨-, hsame, -⟩ := readerCommand_next hr h
    exact ⟨[], by rw [List.append_nil, hsame.sink]⟩
  · exact ⟨[], (List.append_nil _).symm⟩

theorem resetRegisters_inv (s : State) : (resetRegisters s).Inv := ⟨⟨by simp, by simp⟩, by simp⟩

/-- Every step that answers next keeps the invariants (R23, R26): a command by `exec_inv`, RESET by clearing the
registers, and the host's other actions by leaving them alone. -/
theorem step_inv (hs : s.Inv) (h : step s = .next t) : t.Inv := by
  obtain ⟨-, rfl⟩ | ⟨w, rest, i, -, -, he⟩ | ⟨rest, -, rfl⟩ | ⟨rest, -, rfl⟩ | ⟨bytes, rest, -, rfl⟩ |
    ⟨bytes, rest, -, rfl⟩ | ⟨rest, -, rfl⟩ | ⟨rest, -, rfl⟩ := step_cases h
  exacts [hs, exec_inv (s := { s with port := rest }) hs he, hs, hs, hs, hs, hs, resetRegisters_inv _]

end

/-! ### The invariants -/

theorem reset_inv : State.reset.Inv := by decide

/-- The writer invariant, said of the single bits as R23 does. -/
theorem getLsbD_wBuf_of_writerInv {s : State} (h : s.WriterInv) {j : Nat} (hj : s.wCnt.toNat ≤ j) :
    s.wBuf.getLsbD j = false :=
  Nat.testBit_lt_two_pow (lt_of_lt_of_le h.2 (Nat.pow_le_pow_right (by omega) hj))

theorem wBuf_eq_zero_of_writerInv {s : State} (h : s.WriterInv) (hc : s.wCnt = 0) : s.wBuf = 0 := by
  have hlt := h.2
  rw [hc] at hlt
  exact BitVec.eq_of_toNat_eq (Nat.lt_one_iff.1 hlt)

/-- Settles O3: by cases on what a step can do, each command by what the body of a writer or reader command keeps. -/
theorem everyStepKeepsTheInvariants : Obligations.EveryStepKeepsTheInvariants :=
  ⟨reset_inv, fun _ _ => step_inv, fun _ h _ => getLsbD_wBuf_of_writerInv h, fun _ => wBuf_eq_zero_of_writerInv⟩

/-! ### Frames -/

/-- Settles O29: the body of a writer command touches only the writer's registers and appends to the sink. -/
theorem writerCommandsLeaveTheReaderAlone : Obligations.WriterCommandsLeaveTheReaderAlone := by
  intro i s t hi h
  obtain ⟨-, hsame, hport, hpushed⟩ := writerCommand_next hi h
  exact ⟨hsame.rBuf, hsame.rCnt, hsame.src, hport, hpushed⟩

/-- Settles O40: the body of a reader command touches only the reader's registers and leaves a suffix of the source. -/
theorem readerCommandsLeaveTheWriterAlone : Obligations.ReaderCommandsLeaveTheWriterAlone := by
  intro i s t hi h
  obtain ⟨-, hsame, hport, hsrc⟩ := readerCommand_next hi h
  refine ⟨hsame.wBuf, hsame.wCnt, hsame.sink, hport, ⟨_, List.suffix_iff_eq_drop.1 hsrc⟩, ?_⟩
  rintro rfl
  rw [complete_next h]
  rfl

/-- Settles O41: each command runs the same beside the other, as neither touches what the other works on; so every field
but the result is the one its own side's command left. -/
theorem writerAndReaderCommandsCommute : Obligations.WriterAndReaderCommandsCommute := by
  intro i j s hi hj ⟨hw, hr⟩
  obtain ⟨t, ht⟩ := writerCommand_completes hi hw
  obtain ⟨t', ht'⟩ := readerCommand_completes hj hr
  obtain ⟨-, hst, hportT, -⟩ := writerCommand_next hi ht
  obtain ⟨-, hst', hportT', -⟩ := readerCommand_next hj ht'
  obtain ⟨u, hu, hreader, hresult⟩ := readerCommand_depends hj hr hst ht'
  obtain ⟨u', pushed, hu', hsink, hsink', hbuf, hcnt, hresult'⟩ := writerCommand_depends hi hst'.wBuf hst'.wCnt ht
  obtain ⟨-, htu, hportU, -⟩ := readerCommand_next hj hu
  obtain ⟨-, htu', hportU', -⟩ := writerCommand_next hi hu'
  refine ⟨t, u, t', u', ht, hu, ht', hu', hresult, hresult', ?_⟩
  have hsinks : u.sink = u'.sink := by rw [htu.sink, hsink, hsink', hst'.sink]
  have hports : u.port = u'.port := by rw [hportU, hportT, hportU', hportT']
  rw [State.mk.injEq]
  exact ⟨htu.wBuf.trans hbuf.symm, htu.wCnt.trans hcnt.symm, hreader.rBuf.trans htu'.rBuf.symm,
    hreader.rCnt.trans htu'.rCnt.symm, hsinks, hreader.src.trans htu'.src.symm, hports, rfl⟩

/-- Settles O42: by cases on what a step can do; a command only appends, and no other action but CLEAR-SINK writes the
sink. -/
theorem sinkOnlyGrows : Obligations.SinkOnlyGrows := by
  intro s t h hport
  have kept : ∃ pushed, s.sink = s.sink ++ pushed := ⟨[], (List.append_nil _).symm⟩
  obtain ⟨-, rfl⟩ | ⟨w, rest, i, -, -, he⟩ | ⟨rest, -, rfl⟩ | ⟨rest, hp, -⟩ | ⟨bytes, rest, -, rfl⟩ |
    ⟨bytes, rest, -, rfl⟩ | ⟨rest, -, rfl⟩ | ⟨rest, -, rfl⟩ := step_cases h
  · exact kept
  · exact exec_sink_grows (s := { s with port := rest }) he
  · exact kept
  · exact absurd (by rw [hp]; rfl) hport
  all_goals exact kept

/-! ### Reset and refusal -/

theorem step_reset {s : State} {rest : List HostAction} (h : s.port = .reset :: rest) :
    step s = .next (resetRegisters { s with port := rest }) := by
  simp only [step, nextAction, h]

/-- Settles O1: RESET's step is `resetRegisters`. -/
theorem resetEmptiesTheFourRegisters : Obligations.ResetEmptiesTheFourRegisters :=
  ⟨⟨rfl, rfl, rfl, rfl⟩, fun _ _ h => ⟨_, step_reset h, rfl, rfl, rfl, rfl, rfl, rfl⟩⟩

/-- Settles O30: every writer command, and every reader command but RINIT, is guarded by its invariant. -/
theorem registersOutsideTheInvariantsAreRefused : Obligations.RegistersOutsideTheInvariantsAreRefused := by
  intro s
  constructor
  · intro hs i hi
    obtain ⟨body, r, -, he⟩ := exec_of_isWriterCommand hi
    rw [he, withWriter_not s hs]
  · intro hs i hi hne
    obtain ⟨body, -, he⟩ := exec_of_isReaderCommand hi hne
    rw [he, withReader_not s hs]

end Sys2Proof.Machine

/-! ## Stream order: where bits stand in their octets, and in which order the writer and the reader move them -/

namespace Sys2Proof.Machine

/-! ### Streams and octets -/

/-- Stream bit `8m+j` is bit `j` of octet `m` (R45). -/
theorem streamBits_getElem? (l : List Byte) (m j : Nat) (hj : j < 8) :
    (streamBits l)[8 * m + j]? = l[m]?.map fun b => b.getLsbD j := by
  induction l generalizing m with
  | nil => simp
  | cons b l ih =>
    rw [streamBits_cons]
    cases m with
    | zero =>
      rw [List.getElem?_append_left (by simpa using hj), byteBits_getElem?]
      simp [hj]
    | succ m =>
      have hsub : 8 * (m + 1) + j - (byteBits b).length = 8 * m + j := by rw [byteBits_length]; omega
      rw [List.getElem?_append_right (by rw [byteBits_length]; omega), hsub, ih, List.getElem?_cons_succ]

@[simp] theorem packOctets_length (bits : List Bool) : (packOctets bits).length = (bits.length + 7) / 8 := by
  simp [packOctets]

/-- Bit `j` of packed octet `m` is stream bit `8m+j`, 0 past the end of the stream (R45, R50). -/
theorem getLsbD_of_packOctets_getElem? {bits : List Bool} {m j : Nat} {b : Byte} (h : (packOctets bits)[m]? = some b)
    (hj : j < 8) : b.getLsbD j = bits.getD (8 * m + j) false := by
  simp only [packOctets, List.getElem?_map, Option.map_eq_some_iff, List.getElem?_eq_some_iff, List.getElem_range] at h
  obtain ⟨_, ⟨-, rfl⟩, rfl⟩ := h
  rw [BitVec.getLsbD_ofNat, fieldOf_testBit]
  simp [List.getD_eq_getElem?_getD, hj]

/-- Packing pads a stream with zero bits to whole octets and loses nothing of it (R50). -/
theorem streamBits_packOctets (bits : List Bool) :
    streamBits (packOctets bits) = bits ++ List.replicate (8 * ((bits.length + 7) / 8) - bits.length) false := by
  apply List.ext_getElem
  · simp; omega
  · intro i hi hi'
    have hj : i % 8 < 8 := Nat.mod_lt i (by decide)
    have hm : i / 8 < (packOctets bits).length := by rw [streamBits_length] at hi; omega
    have hoctet := List.getElem?_eq_getElem hm
    have hbit := streamBits_getElem? (packOctets bits) (i / 8) (i % 8) hj
    rw [hoctet, Option.map_some, getLsbD_of_packOctets_getElem? hoctet hj, Nat.div_add_mod,
      List.getElem?_eq_getElem hi] at hbit
    rw [Option.some.inj hbit, List.getElem_append, List.getD_eq_getElem?_getD]
    split
    · next hlt => rw [List.getElem?_eq_getElem hlt, Option.getD_some]
    · next hge => rw [List.getElem?_eq_none (Nat.le_of_not_lt hge), List.getElem_replicate, Option.getD_none]

/-- Settles O17: R45 by induction on the octets, and the packed octets by comparing the two streams bit by bit. -/
theorem streamBitsStandInTheirOctets : Obligations.StreamBitsStandInTheirOctets :=
  ⟨streamBits_getElem?, streamBits_packOctets⟩

/-! ### The order in which fields are written and read -/

/-- Settles O20: WBITS is WriteBits, which writes its bits one by one, each at the end of the written stream. -/
theorem wbitsAppendsItsFieldToTheStream : Obligations.WbitsAppendsItsFieldToTheStream :=
  fun s v n h => ⟨_, exec_wbits s v n h, writeBits_written v n.toNat s h, rfl⟩

/-- Settles O32: RBITS is ReadBits, which takes its field from the front of the unread stream. -/
theorem rbitsTakesItsFieldFromTheStream : Obligations.RbitsTakesItsFieldFromTheStream := by
  intro s n h
  obtain ⟨-, hrest⟩ := readBits_takeField n.toNat s h
  exact ⟨_, exec_rbits s n h, congrArg some (readBits_value n.toNat s h), hrest⟩

end Sys2Proof.Machine

/-! ## The two encodings: what the decoder makes of an element, of any stream, and of a command word -/

namespace Sys2Proof.Machine

/-! ### An element in front of a stream (R68 to R72) -/

theorem decodeElement_a (bits : List Bool) :
    decodeElement .a bits =
      if (takeField 1 bits).1 = 1 then takePayload .a16 (takeField 1 bits).2
      else takePayload .a28 (takeField 1 bits).2 := rfl

theorem decodeElement_b (bits : List Bool) :
    decodeElement .b bits =
      if (takeField 1 bits).1 = 1 then takePayload .b13 (takeField 1 bits).2
      else if (takeField 1 (takeField 1 bits).2).1 = 1 then takePayload .b16 (takeField 1 (takeField 1 bits).2).2
        else takePayload .b32 (takeField 1 (takeField 1 bits).2).2 := rfl

theorem decodeElement_c (bits : List Bool) :
    decodeElement .c bits = takePayload (.c ((takeField 5 bits).1.setWidth 5)) (takeField 5 bits).2 := rfl

/-- The two header bits of scheme B are two fields of one bit, as the decoder reads them (R70, D12). -/
theorem headerBits_b16 : lowBits Bucket.b16.headerBits Bucket.b16.headerCode = lowBits 1 0 ++ lowBits 1 1 := by decide

theorem headerBits_b32 : lowBits Bucket.b32.headerBits Bucket.b32.headerCode = lowBits 1 0 ++ lowBits 1 0 := by decide

/-- A header field in front of any stream names its bucket, and the payload stands right behind it (R69 to R72). -/
theorem decodeElement_header (b : Bucket) (rest : List Bool) :
    decodeElement b.scheme (lowBits b.headerBits b.headerCode ++ rest) = takePayload b rest := by
  cases b with
  | a16 | a28 =>
    rw [Bucket.scheme, decodeElement_a, Bucket.headerBits, Bucket.headerCode, takeField_lowBits_append]
    rfl
  | b13 =>
    rw [Bucket.scheme, decodeElement_b, Bucket.headerBits, Bucket.headerCode, takeField_lowBits_append]
    rfl
  | b16 =>
    rw [Bucket.scheme, decodeElement_b, headerBits_b16, List.append_assoc, takeField_lowBits_append,
      takeField_lowBits_append]
    rfl
  | b32 =>
    rw [Bucket.scheme, decodeElement_b, headerBits_b32, List.append_assoc, takeField_lowBits_append,
      takeField_lowBits_append]
    rfl
  | c h =>
    have hname : (BitVec.ofNat 32 ((h.setWidth 32).toNat % 2 ^ 5)).setWidth 5 = h := by bv_omega
    rw [Bucket.scheme, decodeElement_c, Bucket.headerBits, Bucket.headerCode, takeField_lowBits_append, hname]

/-- An element whose payload fits its bucket is recognised in front of any stream (R68, R72). -/
theorem decodeElement_elementBits (e : Element) (he : e.payload.toNat < 2 ^ e.bucket.payloadBits) (rest : List Bool) :
    decodeElement e.bucket.scheme (elementBits e ++ rest) = (e, rest) := by
  rw [elementBits, List.append_assoc, decodeElement_header, takePayload_lowBits e.bucket e.payload he]

/-- Settles O14: the header names the bucket, and a payload that fits the bucket is read back whole. -/
theorem elementDecodesInFrontOfAnyStream : Obligations.ElementDecodesInFrontOfAnyStream :=
  fun i e rest he hi =>
    ⟨decodeElement_elementBits e (payload_lt_of_wellFormed i e he hi) rest, toInstr_of_element? i e he⟩

theorem encode_of_command (i : Instr) (h : i.element? = none) : encode i = .word (commandWord i) := by
  cases i with
  | wbits | wflush | rbits | rinit | bwidth | encA | encB | encC | decA | decB | decC => rfl
  | _ => exact nomatch h

/-- Settles O13: a command by the fields of its word, an element by its decoding in front of the empty stream. -/
theorem decodeUndoesEncode : Obligations.DecodeUndoesEncode := by
  intro i hi
  cases he : i.element? with
  | none => rw [encode_of_command i he, decode, decodeCommand_commandWord i he]
  | some e =>
    have hdec := decodeElement_elementBits e (payload_lt_of_wellFormed i e he hi) []
    rw [List.append_nil] at hdec
    rw [encode_of_element? i e he, elementCode, decode, hdec, toInstr_of_element? i e he]

/-! ### Any stream (R74) -/

/-- `front` is the first bits of the stream, zeros where they are missing, and `rest` is what follows them (R74). -/
def TakesFront (bits front rest : List Bool) : Prop :=
  front ++ rest = bits ++ List.replicate (front.length - bits.length) false

theorem TakesFront.append {bits front mid next rest : List Bool} (h : TakesFront bits front mid)
    (k : TakesFront mid next rest) : TakesFront bits (front ++ next) rest := by
  have hlen := congrArg List.length h
  simp only [List.length_append, List.length_replicate] at hlen
  have hpad : front.length - bits.length + (next.length - mid.length) = front.length + next.length - bits.length := by
    omega
  calc front ++ next ++ rest = front ++ mid ++ List.replicate (next.length - mid.length) false := by
        rw [List.append_assoc, k, List.append_assoc]
    _ = _ := by rw [h, List.append_assoc, ← List.replicate_add, hpad, List.length_append]

theorem takesFront_takeField {n : Nat} (hn : n ≤ 32) (bits : List Bool) :
    TakesFront bits (lowBits n (takeField n bits).1) (takeField n bits).2 := by
  rw [TakesFront, lowBits_length, lowBits_takeField n hn, takeField]
  obtain hlong | hshort := Nat.le_total n bits.length
  · simp [Nat.sub_eq_zero_of_le hlong]
  · simp [List.take_of_length_le hshort, List.drop_of_length_le hshort]

theorem takesFront_takePayload (b : Bucket) (bits : List Bool) :
    TakesFront bits (lowBits b.payloadBits (takePayload b bits).1.payload) (takePayload b bits).2 :=
  takesFront_takeField (payloadBits_bounds b).2 bits

/-- A field of one bit is 0 when it is not 1. -/
theorem takeField_one_eq_zero {bits : List Bool} (h : (takeField 1 bits).1 ≠ 1) : (takeField 1 bits).1 = 0 := by
  have hlt : (takeField 1 bits).1.toNat < 2 := by
    rw [takeField_toNat 1 (by decide), fieldOf_take]
    exact Nat.mod_lt _ (by decide)
  bv_omega

/-- Everything the decoder of a scheme can do: it takes the header of one of the scheme's buckets off the front of the
stream, then the bucket's payload (R69 to R71). -/
theorem decodeElement_cases (sch : Scheme) (bits : List Bool) :
    ∃ b tail, b.scheme = sch ∧ TakesFront bits (lowBits b.headerBits b.headerCode) tail ∧
      decodeElement sch bits = takePayload b tail := by
  cases sch with
  | a =>
    have first := takesFront_takeField (n := 1) (by decide) bits
    rw [decodeElement_a]
    by_cases h : (takeField 1 bits).1 = 1
    · rw [h] at first
      exact ⟨.a16, _, rfl, first, if_pos h⟩
    · rw [takeField_one_eq_zero h] at first
      exact ⟨.a28, _, rfl, first, if_neg h⟩
  | b =>
    have first := takesFront_takeField (n := 1) (by decide) bits
    have second := takesFront_takeField (n := 1) (by decide) (takeField 1 bits).2
    rw [decodeElement_b]
    by_cases h : (takeField 1 bits).1 = 1
    · rw [h] at first
      exact ⟨.b13, _, rfl, first, if_pos h⟩
    · rw [takeField_one_eq_zero h] at first
      rw [if_neg h]
      by_cases h' : (takeField 1 (takeField 1 bits).2).1 = 1
      · rw [h'] at second
        exact ⟨.b16, _, rfl, headerBits_b16 ▸ first.append second, if_pos h'⟩
      · rw [takeField_one_eq_zero h'] at second
        exact ⟨.b32, _, rfl, headerBits_b32 ▸ first.append second, if_neg h'⟩
  | c =>
    have header := takesFront_takeField (n := 5) (by decide) bits
    have hcode : (((takeField 5 bits).1.setWidth 5).setWidth 32) = (takeField 5 bits).1 := by
      have hlt : (takeField 5 bits).1.toNat < 2 ^ 5 := by
        rw [takeField_toNat 5 (by decide), fieldOf_take]
        exact Nat.mod_lt _ (by decide)
      bv_omega
    refine ⟨.c ((takeField 5 bits).1.setWidth 5), _, rfl, ?_, decodeElement_c bits⟩
    rwa [Bucket.headerBits, Bucket.headerCode, hcode]

/-- Settles O15: the decoder takes a header off the stream, then a payload off the front of what is left. -/
theorem everyBitStringDecodes : Obligations.EveryBitStringDecodes := by
  intro sch bits
  obtain ⟨b, tail, hsch, header, hdec⟩ := decodeElement_cases sch bits
  have whole : TakesFront bits (elementBits (takePayload b tail).1) (takePayload b tail).2 :=
    header.append (takesFront_takePayload b tail)
  rw [hdec]
  refine ⟨hsch, ?_⟩
  rw [← elementBits_length]
  exact whole

/-! ### The pattern and the payload of an element -/

/-- Settles O16: the patterns are the headers' bits written out; a scheme C header holds the width below 32 as it is. -/
theorem elementPatterns : Obligations.ElementPatterns := by
  intro p
  have header (b : Bucket) (front : List Bool) (hb : lowBits b.headerBits b.headerCode = front) :
      elementBits ⟨b, p⟩ = front ++ lowBits b.payloadBits p := by rw [elementBits, hb]
  refine ⟨header .a16 [true] (by decide), header .a28 [false] (by decide), header .b13 [true] (by decide),
    header .b16 [false, true] (by decide), header .b32 [false, false] (by decide),
    header (.c 0) (List.replicate 5 false) (by decide), fun w h1 h31 => ?_⟩
  have hheader : (BitVec.ofNat 5 w).setWidth 32 = BitVec.ofNat 32 w := by
    bv_omega
  rw [elementBits, Bucket.headerBits, Bucket.headerCode, Bucket.payloadBits, hheader,
    widthOfHeader_ofNat w h1 (by omega)]

theorem exec_of_element? (i : Instr) (e : Element) (s : State) (h : i.element? = some e) :
    exec i s = deliverElement e s := by
  cases i with
  | wbits | wflush | rbits | rinit | bwidth | encA | encB | encC | decA | decB | decC => exact nomatch h
  | _ => obtain rfl := Option.some.inj h; rfl

/-- Settles O54: all thirty-seven element rows deliver their element, and a payload that fits is delivered whole. -/
theorem elementsDeliverTheirPayload : Obligations.ElementsDeliverTheirPayload := by
  intro i e s he
  have hexec := exec_of_element? i e s he
  refine ⟨hexec, fun hi => ?_⟩
  have hfits := Nat.mod_eq_of_lt (payload_lt_of_wellFormed i e he hi)
  rw [hexec, deliverElement, hfits, BitVec.ofNat_toNat, BitVec.setWidth_eq, complete]

/-! ### The opcode map (R60 to R64) -/

/-- Every command word is made of its three fields (R60). -/
theorem cmdWord_fields (w : CmdWord) : cmdWord (opField w) (nField w) (valueField w) = w := by
  have hw := w.isLt
  apply BitVec.eq_of_toNat_eq
  simp only [cmdWord_toNat, opField, nField, valueField, BitVec.extractLsb'_toNat, Nat.shiftRight_eq_div_pow]
  omega

theorem setWidth_opField (w : CmdWord) : (opField w).setWidth 42 = w >>> 38 := by
  have hw := w.isLt
  apply BitVec.eq_of_toNat_eq
  simp only [opField, BitVec.toNat_setWidth, BitVec.extractLsb'_toNat, BitVec.toNat_ushiftRight,
    Nat.shiftRight_eq_div_pow]
  omega

theorem and_opMask (w : CmdWord) : w &&& opMask = ((opField w).setWidth 42) <<< 38 := by
  have hmask : opMask = BitVec.allOnes 42 <<< 38 := by decide
  rw [hmask, setWidth_opField, BitVec.shiftLeft_ushiftRight]

theorem shiftedOp_inj {a b : BitVec 4} (h : (a.setWidth 42) <<< 38 = (b.setWidth 42) <<< 38) : a = b := by
  bv_omega

/-- A word matches a shifted opcode under the mask exactly when its op field is the opcode (R63). -/
theorem and_opMask_eq_iff (w : CmdWord) (op : BitVec 4) : w &&& opMask = (op.setWidth 42) <<< 38 ↔ opField w = op := by
  rw [and_opMask]
  exact ⟨shiftedOp_inj, fun h => by rw [h]⟩

/-- Settles O11: the fields of a word, its match under the mask, and the map's arms one opcode at a time. -/
theorem opcodeMapSelectsTheCommand : Obligations.OpcodeMapSelectsTheCommand := by
  refine ⟨fun op n v => ⟨cmdWord_toNat op n v, opField_cmdWord op n v, nField_cmdWord op n v,
      valueField_cmdWord op n v⟩, fun w op => ⟨rfl, and_opMask_eq_iff w op⟩, fun op n v hop => ?_, fun n v => ?_⟩
  · fin_cases hop <;> simp [decodeCommand]
  · simp [decodeCommand]

theorem opcode_of_not_reserved (op : BitVec 4) (h : op ∉ [0x0, 0x6, 0x7, 0xB, 0xF]) :
    op ∈ [0x1, 0x2, 0x3, 0x4, 0x5, 0x8, 0x9, 0xA, 0xC, 0xD, 0xE] := by
  decide +revert

/-- Settles O7: the opcode map on the word's own fields; the opcodes that are not reserved are the map's eleven. -/
theorem reservedOpcodesAreRefused : Obligations.ReservedOpcodesAreRefused := by
  intro s w rest hport
  obtain ⟨-, -, hreserved, hmap⟩ := opcodeMapSelectsTheCommand
  refine ⟨fun hop => ?_, fun hop => ?_⟩
  · have hdec : decodeCommand w = .reserved (opField w) := by
      simpa only [cmdWord_fields] using hreserved _ (nField w) (valueField w) hop
    simp only [step, nextAction, hport, hdec]
  · have hmember := opcode_of_not_reserved _ hop
    rw [← cmdWord_fields w]
    generalize opField w = op at hmember
    fin_cases hmember <;> simp only [hmap, Decoded.instr.injEq, exists_eq']

/-- Settles O12: by the opcode map, a format's command is made of the fields the format uses. -/
theorem unusedFieldsAreIgnored : Obligations.UnusedFieldsAreIgnored := by
  intro w w' hop
  obtain ⟨-, -, -, hmap⟩ := opcodeMapSelectsTheCommand
  rw [← cmdWord_fields w, ← cmdWord_fields w', ← hop]
  simp only [opField_cmdWord, nField_cmdWord, valueField_cmdWord]
  generalize opField w = op
  refine ⟨fun hz => ?_, fun hn heq => ?_, fun hv heq => ?_, fun hvn hn hv => by rw [hn, hv]⟩
  · fin_cases hz <;> simp only [hmap]
  · simp only [hn, hmap, heq]
  · fin_cases hv <;> simp only [hmap, heq]

/-! ### Fixed words, patterns and lines of assembler text (R60 to R71) -/

/-- Settles O10 by evaluation: the nine codes are fixed ones. -/
theorem sampleWordsDecode : Obligations.SampleWordsDecode := by
  unfold Obligations.SampleWordsDecode
  decide

/-- Settles O18 by evaluation: the eight lines are fixed ones. -/
theorem assemblerLinesAssemble : Obligations.AssemblerLinesAssemble := by
  unfold Obligations.AssemblerLinesAssemble
  decide

/-! ### Results (R65) -/

theorem decodeFrom_of (sch : Scheme) (s : State) (h : s.ReaderInv) :
    decodeFrom sch s = .next { (readElement sch s).2 with result := (readElement sch s).1 } := by
  rw [decodeFrom_eq_readElement, withReader_of s h, complete]

/-- Settles O9, command by command: each completes under its own half of the invariants, and only the bodies of WFLUSH
and RINIT complete without a result. -/
theorem commandsReturnTheirResults : Obligations.CommandsReturnTheirResults := by
  intro i s ⟨hw, hr⟩ he
  cases i with
  | wbits v n => exact ⟨_, exec_wbits s v n hw, by simp⟩
  | wflush => exact ⟨_, exec_wflush s hw, by simp⟩
  | rbits n => exact ⟨_, exec_rbits s n hr, by simp⟩
  | rinit => exact ⟨_, exec_rinit s, by simp⟩
  | bwidth v => exact ⟨_, rfl, by simp⟩
  | encA v => exact ⟨_, encodeInto_of (selectA v) v s hw, by simp⟩
  | encB v => exact ⟨_, encodeInto_of (selectB v) v s hw, by simp⟩
  | encC v => exact ⟨_, encodeInto_of (selectC v) v s hw, by simp⟩
  | decA => exact ⟨_, decodeFrom_of .a s hr, by simp [readElement]⟩
  | decB => exact ⟨_, decodeFrom_of .b s hr, by simp [readElement]⟩
  | decC => exact ⟨_, decodeFrom_of .c s hr, by simp [readElement]⟩
  | _ => exact nomatch he

end Sys2Proof.Machine

/-! ## The writer's commands and runs of writes (R91 to R102) -/

namespace Sys2Proof.Machine

/-! ### One write -/

/-- What a write leaves is fixed by the clamped count and the value's bits below it (R94). -/
theorem writeBits_congr {v v' : Value} {k k' : Nat} (hk : clampCount k = clampCount k')
    (hv : v.toNat % 2 ^ clampCount k = v'.toNat % 2 ^ clampCount k) (s : State) :
    writeBits v k s = writeBits v' k' s := by
  have hbits : lowBits (clampCount k) v = lowBits (clampCount k) v' :=
    bits_eq_of_field _ _ (by simp) (by rw [fieldOf_lowBits, fieldOf_lowBits, hv])
  rw [writeBits_eq_foldl, writeBits_eq_foldl, hbits, hk]

theorem clampCount_eq_of_gt {k : Nat} (h : 32 < k) : clampCount k = clampCount 32 := Nat.min_eq_right h.le

/-- The pending bits with a field of `n` bits above them are a number of `c + n` bits (R95). -/
theorem writerNumber_lt {s : State} (h : s.WriterInv) (x n : Nat) :
    s.wBuf.toNat + x % 2 ^ n * 2 ^ s.wCnt.toNat < 2 ^ (s.wCnt.toNat + n) := by
  have hfield : (x % 2 ^ n + 1) * 2 ^ s.wCnt.toNat ≤ 2 ^ n * 2 ^ s.wCnt.toNat :=
    Nat.mul_le_mul_right _ (Nat.mod_lt x (by positivity))
  rw [Nat.add_mul, Nat.one_mul] at hfield
  rw [pow_add, Nat.mul_comm (2 ^ s.wCnt.toNat)]
  exact lt_of_lt_of_le (by have hbuf := h.2; omega) hfield

/-- What is left of a number of `L` bits above its whole octets is below one octet. -/
theorem div_octets_lt {z L : Nat} (h : z < 2 ^ L) : z / 2 ^ (8 * (L / 8)) < 2 ^ 8 := by
  rw [Nat.div_lt_iff_lt_mul (by positivity), ← pow_add]
  exact lt_of_lt_of_le h (Nat.pow_le_pow_right (by decide) (by omega))

/-- Settles O19: the closed form of the writer's loop, whose number the writer invariant bounds. -/
theorem wbitsClosedForm : Obligations.WbitsClosedForm := by
  intro s v n h
  dsimp only
  have hlt := writerNumber_lt h v.toNat (min n.toNat 32)
  refine ⟨hlt, fun hn => ?_, ?_, div_octets_lt hlt⟩
  · have hc := h.1
    omega
  · rw [exec_wbits s v n h, writeBits_closed v n.toNat s h, Nat.mul_comm (2 ^ s.wCnt.toNat)]
    rfl

/-- Settles O23: equal remainders give equal fields, in a state that the writer refuses as in any other. -/
theorem wbitsIgnoresHighBits : Obligations.WbitsIgnoresHighBits :=
  fun s _ _ _ hv => congrArg (fun t => withWriter s (complete _ t)) (writeBits_congr rfl hv s)

/-- Settles O21: both loops run over the clamped count, and 32 is what any larger count is clamped to. -/
theorem countsAboveThirtyTwoBehaveAsThirtyTwo : Obligations.CountsAboveThirtyTwoBehaveAsThirtyTwo := by
  intro s v n hn
  have hclamp : clampCount n.toNat = clampCount (32 : Count).toNat := clampCount_eq_of_gt hn
  have hread : readBits n.toNat s = readBits (32 : Count).toNat s := by rw [readBits, readBits, hclamp]
  refine ⟨?_, fun h => ⟨_, exec_wbits s v n h, ?_⟩, ?_⟩
  · change execWbits v n s = execWbits v 32 s
    rw [execWbits, execWbits, hclamp, writeBits_congr hclamp rfl]
  · rw [Nat.min_eq_right hn.le]
    rfl
  · change execRbits n s = execRbits 32 s
    rw [execRbits, execRbits, hread]

/-- Settles O22: a write of no bits is a loop of no turns. -/
theorem wbitsOfNoBitsChangesNothing : Obligations.WbitsOfNoBitsChangesNothing :=
  fun s v h => exec_wbits s v 0 h

/-! ### The flush -/

theorem flushWriter_eq (s : State) :
    flushWriter s = { s with wBuf := 0, wCnt := 0, sink := if s.wCnt = 0 then s.sink else s.sink ++ [s.wBuf] } := by
  by_cases hc : s.wCnt = 0
  · rw [flushWriter, if_neg (not_not.2 hc), if_pos hc]
  · rw [flushWriter, if_pos hc, if_neg hc]
    rfl

/-- Settles O24: the body of WFLUSH as one update of the state. -/
theorem wflushEmitsThePartialOctet : Obligations.WflushEmitsThePartialOctet := by
  intro s h
  rw [exec_wflush s h, flushWriter_eq]

/-- An empty writer has nothing to flush (R96). -/
theorem flushWriter_of_empty {s : State} (h : s.WriterInv) (hc : s.wCnt = 0) : flushWriter s = s := by
  rw [flushWriter_eq, if_pos hc, ← wBuf_eq_zero_of_writerInv h hc, ← hc]

/-- Settles O25: a flush leaves the writer empty, and an empty writer has nothing to flush. -/
theorem wflushIsIdempotent : Obligations.WflushIsIdempotent := by
  have onEmpty (s : State) (h : s.WriterInv) (hc : s.wCnt = 0) : exec .wflush s = .next { s with result := none } := by
    rw [exec_wflush s h, flushWriter_of_empty h hc]
  refine ⟨onEmpty, fun s t ht => ?_⟩
  obtain ⟨-, hr⟩ := withWriter_next ht
  rw [complete_next hr]
  exact onEmpty _ (flushWriter_writerInv s) rfl

/-- Settles O28: the body of a writer command reads the writer's registers alone. -/
theorem writerDependsOnItsRegistersAlone : Obligations.WriterDependsOnItsRegistersAlone :=
  fun _ _ _ _ hi hb hc h => writerCommand_depends hi hb hc h

/-! ### Bits written one after another -/

/-- The state after writing a list of bits, the first one first: what every write of the model comes to (R90). -/
def appendBits (bits : List Bool) (s : State) : State := bits.foldl (fun t b => writeBit b t) s

theorem appendBits_append (first later : List Bool) (s : State) :
    appendBits (first ++ later) s = appendBits later (appendBits first s) := List.foldl_append

theorem appendBits_writerInv (bits : List Bool) {s : State} (h : s.WriterInv) : (appendBits bits s).WriterInv :=
  (foldl_writeBit bits s h).1

theorem appendBits_result (bits : List Bool) {s : State} (r : Option Value) (h : s.WriterInv) :
    appendBits bits { s with result := r } = { appendBits bits s with result := r } := by
  rw [appendBits, appendBits, foldl_writeBit_closed bits { s with result := r } h, foldl_writeBit_closed bits s h]

theorem exec_wbits_appendBits (s : State) (v : Value) (n : Count) (h : s.WriterInv) :
    exec (.wbits v n) s =
      .next { appendBits (lowBits (clamped n) v) s with result := some (BitVec.ofNat 32 (clamped n)) } := by
  rw [exec_wbits s v n h, writeBits_eq_foldl]
  rfl

/-- Bits written to an empty writer: the whole octets are in the sink, the rest in the buffer (R97). -/
theorem appendBits_of_empty (bits : List Bool) {s : State} (h : s.WriterInv) (hc : s.wCnt = 0) :
    appendBits bits s =
      { s with
        wBuf := BitVec.ofNat 8 (fieldOf bits / 2 ^ (8 * (bits.length / 8)))
        wCnt := BitVec.ofNat 4 (bits.length % 8)
        sink := s.sink ++ octetsOf (fieldOf bits) (bits.length / 8) } := by
  rw [appendBits, foldl_writeBit_closed bits s h]
  simp [wBuf_eq_zero_of_writerInv h hc, hc]

theorem appendBits_of_empty_wCnt (bits : List Bool) {s : State} (h : s.WriterInv) (hc : s.wCnt = 0) :
    (appendBits bits s).wCnt.toNat = bits.length % 8 := by
  rw [appendBits_of_empty bits h hc]
  exact Nat.mod_eq_of_lt (by omega)

/-- A flush behind bits written to an empty writer completes their last octet (R98, R99). -/
theorem flushWriter_appendBits_sink (bits : List Bool) {s : State} (h : s.WriterInv) (hc : s.wCnt = 0) :
    (flushWriter (appendBits bits s)).sink = s.sink ++ octetsOf (fieldOf bits) ((bits.length + 7) / 8) := by
  have hcnt := appendBits_of_empty_wCnt bits h hc
  rw [flushWriter_eq]
  by_cases hz : (appendBits bits s).wCnt = 0
  · have hwhole : (bits.length + 7) / 8 = bits.length / 8 := by
      rw [hz] at hcnt
      have : bits.length % 8 = 0 := hcnt.symm
      omega
    rw [if_pos hz, hwhole, appendBits_of_empty bits h hc]
  · have hpartial : (bits.length + 7) / 8 = bits.length / 8 + 1 := by
      have : bits.length % 8 ≠ 0 := fun h0 => hz (BitVec.eq_of_toNat_eq (hcnt.trans h0))
      omega
    have hlast : BitVec.ofNat 8 (fieldOf bits / 2 ^ (8 * (bits.length / 8)) % 256) =
        BitVec.ofNat 8 (fieldOf bits / 2 ^ (8 * (bits.length / 8))) :=
      BitVec.eq_of_toNat_eq (by simp)
    rw [if_neg hz, hpartial, octetsOf_succ, hlast, ← List.append_assoc, appendBits_of_empty bits h hc]

/-! ### Runs of WBITS -/

/-- The fields of a list of writes laid end to end, the first lowest (R99). -/
def fieldsBits (fields : List (Value × Count)) : List Bool := fields.flatMap fun f => lowBits (clamped f.2) f.1

@[simp] theorem fieldsBits_cons (f : Value × Count) (fields : List (Value × Count)) :
    fieldsBits (f :: fields) = lowBits (clamped f.2) f.1 ++ fieldsBits fields := rfl

@[simp] theorem fieldsBits_length (fields : List (Value × Count)) : (fieldsBits fields).length = bitTotal fields := by
  induction fields with
  | nil => rfl
  | cons f fields ih => simp [bitTotal, ih]

@[simp] theorem fieldOf_fieldsBits (fields : List (Value × Count)) :
    fieldOf (fieldsBits fields) = fieldsNumber fields := by
  induction fields with
  | nil => rfl
  | cons f fields ih => simp [fieldsNumber, fieldOf_append, fieldOf_lowBits, ih]

/-- A run of WBITS commands writes their fields end to end and returns their clamped counts (R92, R98). -/
theorem runCommands_writesOf (fields : List (Value × Count)) {s : State} (h : s.WriterInv) :
    ∃ r, runCommands (writesOf fields) s =
      .next ({ appendBits (fieldsBits fields) s with result := r },
        fields.map fun f => BitVec.ofNat 32 (clamped f.2)) := by
  induction fields generalizing s with
  | nil => exact ⟨s.result, rfl⟩
  | cons f fields ih =>
    have hmid := appendBits_writerInv (lowBits (clamped f.2) f.1) h
    obtain ⟨r, hrest⟩ := ih (s := { appendBits (lowBits (clamped f.2) f.1) s with
      result := some (BitVec.ofNat 32 (clamped f.2)) }) hmid
    rw [appendBits_result _ _ hmid, ← appendBits_append] at hrest
    exact ⟨r, runCommands_cons (exec_wbits_appendBits s f.1 f.2 h) hrest⟩

/-- Settles O26: the run is the fields' bits written to an empty writer, octet by octet as they fill up. -/
theorem octetsVisibleBeforeTheFlush : Obligations.OctetsVisibleBeforeTheFlush := by
  intro s fields h hc
  obtain ⟨r, hrun⟩ := runCommands_writesOf fields h
  have hcnt := appendBits_of_empty_wCnt (fieldsBits fields) h hc
  rw [fieldsBits_length] at hcnt
  refine ⟨_, _, octetsOf (fieldsNumber fields) (bitTotal fields / 8), hrun, ?_, octetsOf_length _ _, hcnt⟩
  rw [appendBits_of_empty _ h hc, fieldOf_fieldsBits, fieldsBits_length]

/-- One field of `a + b` bits is a field of `a` bits and one of `b` bits behind it (R98). -/
theorem lowBits_add (x y : Value) {a b : Nat} (hab : a + b ≤ 32) :
    lowBits (a + b) (BitVec.ofNat 32 (x.toNat % 2 ^ a + y.toNat % 2 ^ b * 2 ^ a)) = lowBits a x ++ lowBits b y := by
  have hfields : fieldOf (lowBits a x ++ lowBits b y) = x.toNat % 2 ^ a + y.toNat % 2 ^ b * 2 ^ a := by
    rw [fieldOf_append, fieldOf_lowBits, fieldOf_lowBits, lowBits_length, Nat.mul_comm]
  have hlt := fieldOf_lt (lowBits a x ++ lowBits b y)
  rw [hfields, List.length_append, lowBits_length, lowBits_length] at hlt
  apply bits_eq_of_field
  · simp
  · have hle : 2 ^ (a + b) ≤ 2 ^ 32 := Nat.pow_le_pow_right (by decide) hab
    rw [hfields, fieldOf_lowBits, BitVec.toNat_ofNat, Nat.mod_eq_of_lt (lt_of_lt_of_le hlt hle), Nat.mod_eq_of_lt hlt]

theorem clamped_of_le {n : Count} (h : n.toNat ≤ 32) : clamped n = n.toNat := Nat.min_eq_left h

/-- Settles O27: the run writes the fields' bits and the flush completes their last octet; and two fields written one
after the other are the bits of one. -/
theorem flushedStreamSizeAndContent : Obligations.FlushedStreamSizeAndContent := by
  refine ⟨fun s fields h hc => ?_, fun s x y a b h hab => ?_⟩
  · obtain ⟨r, hrun⟩ := runCommands_writesOf fields h
    have hinv := appendBits_writerInv (fieldsBits fields) h
    have hflush := exec_wflush { appendBits (fieldsBits fields) s with result := r } hinv
    refine ⟨_, _, runCommands_append hrun (runCommands_cons hflush rfl), ?_, rfl, rfl⟩
    have hsink := flushWriter_appendBits_sink (fieldsBits fields) h hc
    rw [fieldOf_fieldsBits, fieldsBits_length] at hsink
    rwa [flushWriter_sink] at hsink ⊢
  · have hsum : (a + b).toNat = a.toNat + b.toNat := by
      rw [BitVec.toNat_add]
      exact Nat.mod_eq_of_lt (by omega)
    have hmid := appendBits_writerInv (lowBits (clamped a) x) h
    refine ⟨_, _, exec_wbits_appendBits s x a h, exec_wbits_appendBits _ y b hmid, ?_⟩
    have ha : clamped a = a.toNat := clamped_of_le (by omega)
    have hb : clamped b = b.toNat := clamped_of_le (by omega)
    have hboth : clamped (a + b) = a.toNat + b.toNat := by rw [clamped_of_le (by omega), hsum]
    rw [exec_wbits_appendBits _ _ _ h, appendBits_result _ _ hmid, ← appendBits_append, ha, hb, hboth,
      lowBits_add x y hab]

end Sys2Proof.Machine

/-! ## The reader's commands and runs of reads (R110 to R122) -/

namespace Sys2Proof.Machine

/-! ### What one read consumes -/

/-- The state with another last result (R65). -/
def State.withResult (s : State) (r : Option Value) : State := { s with result := r }

@[simp] theorem withResult_withResult (s : State) (r q : Option Value) :
    (s.withResult r).withResult q = s.withResult q := rfl
@[simp] theorem unread_withResult (s : State) (r : Option Value) : (s.withResult r).unread = s.unread := rfl

/-- The state with the next `k` bits consumed, as far as there are so many, octets pulled where the buffer runs out
(R116): what every read of the model leaves. -/
def advanceBits (k : Nat) (s : State) : State :=
  { s with
    rBuf := (s.src.take (pulledOctets s k)).getLastD s.rBuf
    rCnt := BitVec.ofNat 4 (s.rCnt.toNat + 8 * pulledOctets s k - k)
    src := s.src.drop (pulledOctets s k) }

@[simp] theorem advanceBits_withResult (k : Nat) (s : State) (r : Option Value) :
    advanceBits k (s.withResult r) = (advanceBits k s).withResult r := rfl

theorem clamped_le (n : Count) : clamped n ≤ 32 := Nat.min_le_right _ _

/-- RBITS takes its field from the unread stream and consumes its bits (R110). -/
theorem exec_rbits_advanceBits (s : State) (n : Count) (h : s.ReaderInv) :
    exec (.rbits n) s =
      .next ((advanceBits (clamped n) s).withResult (some (takeField (clamped n) s.unread).1)) := by
  rw [exec_rbits s n h, readBits_state n.toNat s h, readBits_value n.toNat s h]
  rfl

/-- A read pulls no more octets than its bits and the buffered ones call for, and no more than there are. -/
theorem pulledOctets_le (s : State) (k : Nat) :
    pulledOctets s k ≤ (k - s.rCnt.toNat + 7) / 8 ∧ pulledOctets s k ≤ s.src.length :=
  Nat.le_min.1 (le_refl (pulledOctets s k))

theorem advanceBits_rCnt_toNat (k : Nat) {s : State} (h : s.ReaderInv) :
    (advanceBits k s).rCnt.toNat = s.rCnt.toNat + 8 * pulledOctets s k - k := by
  have hc : s.rCnt.toNat ≤ 7 := h
  obtain ⟨hp, -⟩ := pulledOctets_le s k
  exact Nat.mod_eq_of_lt (by omega)

theorem advanceBits_readerInv (k : Nat) {s : State} (h : s.ReaderInv) : (advanceBits k s).ReaderInv := by
  have hc : s.rCnt.toNat ≤ 7 := h
  obtain ⟨hp, -⟩ := pulledOctets_le s k
  rw [State.ReaderInv, advanceBits_rCnt_toNat k h]
  omega

/-- A read behind another pulls for the bits that the first has not left in the buffer. -/
theorem pulledOctets_advanceBits (a b : Nat) {s : State} (h : s.ReaderInv) :
    pulledOctets (advanceBits a s) b =
      min ((b - (s.rCnt.toNat + 8 * pulledOctets s a - a) + 7) / 8) (s.src.length - pulledOctets s a) := by
  have hlen : (advanceBits a s).src.length = s.src.length - pulledOctets s a := List.length_drop
  rw [pulledOctets, advanceBits_rCnt_toNat a h, hlen]

/-- Two reads pull together what one read of both counts pulls. -/
theorem pulledOctets_add (a b : Nat) {s : State} (h : s.ReaderInv) :
    pulledOctets s (a + b) = pulledOctets s a + pulledOctets (advanceBits a s) b := by
  have hc : s.rCnt.toNat ≤ 7 := h
  rw [pulledOctets_advanceBits a b h, pulledOctets, pulledOctets]
  omega

/-- Consuming bits in two goes is consuming them in one (R119). -/
theorem advanceBits_add (a b : Nat) {s : State} (h : s.ReaderInv) :
    advanceBits (a + b) s = advanceBits b (advanceBits a s) := by
  have hsum := pulledOctets_add a b h
  have hcnt : s.rCnt.toNat + 8 * pulledOctets s (a + b) - (a + b) =
      (advanceBits a s).rCnt.toNat + 8 * pulledOctets (advanceBits a s) b - b := by
    have hp : pulledOctets s a = min ((a - s.rCnt.toNat + 7) / 8) s.src.length := rfl
    rw [advanceBits_rCnt_toNat a h, hsum, pulledOctets_advanceBits a b h]
    omega
  rw [advanceBits, hcnt, hsum, List.take_add, ← List.drop_drop]
  simp [advanceBits, List.getLastD_eq_getLast?]

/-- A read drops its bits from the unread stream. -/
theorem advanceBits_unread {k : Nat} (hk : k ≤ 32) {s : State} (h : s.ReaderInv) :
    (advanceBits k s).unread = s.unread.drop k := by
  obtain ⟨-, hrest, -⟩ := readLoop_spec k hk s h
  rwa [readLoop_state k hk s h] at hrest

/-- A read of buffered bits only counts them off. -/
theorem advanceBits_of_le {k : Nat} {s : State} (hk : k ≤ s.rCnt.toNat) :
    pulledOctets s k = 0 ∧ advanceBits k s = { s with rCnt := BitVec.ofNat 4 (s.rCnt.toNat - k) } := by
  have hp : pulledOctets s k = 0 := by
    obtain ⟨hp, -⟩ := pulledOctets_le s k
    omega
  rw [advanceBits, hp]
  exact ⟨rfl, rfl⟩

/-- A read of more bits than there are leaves none in the buffer and no octet in the source (R114, R121). -/
theorem advanceBits_of_exhausted {k : Nat} {s : State} (hk : s.rCnt.toNat + 8 * s.src.length < k) :
    advanceBits k s =
      { s with rBuf := (s.src.take (pulledOctets s k)).getLastD s.rBuf, rCnt := 0, src := [] } := by
  have hp : pulledOctets s k = s.src.length := Nat.min_eq_right (by omega)
  have hcnt : s.rCnt.toNat + 8 * pulledOctets s k - k = 0 := by omega
  have hsrc : s.src.drop (pulledOctets s k) = [] := by rw [hp, List.drop_length]
  rw [advanceBits, hcnt, hsrc]
  rfl

/-! ### The bits a read can take -/

theorem bufferedBits_length {s : State} (h : s.ReaderInv) : s.bufferedBits.length = s.rCnt.toNat := by
  have hc : s.rCnt.toNat ≤ 7 := h
  rw [State.bufferedBits, List.length_drop, byteBits_length]
  omega

theorem unread_length {s : State} (h : s.ReaderInv) : s.unread.length = s.rCnt.toNat + 8 * s.src.length := by
  rw [State.unread, List.length_append, bufferedBits_length h, streamBits_length]

theorem readerInv_of_empty {s : State} (h : s.rCnt = 0) : s.ReaderInv := by
  rw [State.ReaderInv, h]
  decide

/-- An empty reader has the bits of its source to deliver. -/
theorem unread_of_empty {s : State} (h : s.rCnt = 0) : s.unread = streamBits s.src := by
  have hlen := bufferedBits_length (readerInv_of_empty h)
  rw [h] at hlen
  rw [State.unread, List.eq_nil_of_length_eq_zero hlen, List.nil_append]

/-- The bits at hand in a read of `k` bits: the buffered ones and those of the octets it pulls. -/
def availableBits (s : State) (k : Nat) : List Bool :=
  s.bufferedBits ++ streamBits (s.src.take (pulledOctets s k))

theorem availableBits_length (k : Nat) {s : State} (h : s.ReaderInv) :
    (availableBits s k).length = s.rCnt.toNat + 8 * pulledOctets s k := by
  obtain ⟨-, hp⟩ := pulledOctets_le s k
  rw [availableBits, List.length_append, bufferedBits_length h, streamBits_length, List.length_take, Nat.min_eq_left hp]

/-- `S` of R116: the number of the bits at hand. -/
theorem fieldOf_availableBits (k : Nat) {s : State} (h : s.ReaderInv) :
    fieldOf (availableBits s k) =
      s.rBuf.toNat / 2 ^ (8 - s.rCnt.toNat) + octetsNumber (s.src.take (pulledOctets s k)) * 2 ^ s.rCnt.toNat := by
  rw [availableBits, fieldOf_append, bufferedBits_length h, fieldOf_streamBits, State.bufferedBits, fieldOf_drop,
    fieldOf_byteBits, Nat.mul_comm]

/-- A read finds the bits it asks for among those at hand: it pulls octets enough, or all there are. -/
theorem unread_take (k : Nat) {s : State} (h : s.ReaderInv) : s.unread.take k = (availableBits s k).take k := by
  obtain hp | hp : pulledOctets s k = (k - s.rCnt.toNat + 7) / 8 ∨ pulledOctets s k = s.src.length := min_choice _ _
  · have hk : k - s.rCnt.toNat ≤ 8 * pulledOctets s k := by omega
    rw [State.unread, availableBits, streamBits_take, List.take_append, List.take_append, List.take_take,
      bufferedBits_length h, Nat.min_eq_left hk]
  · rw [availableBits, hp, List.take_length]
    rfl

/-- RBITS in closed form, with and without exhaustion (R116). -/
theorem exec_rbits_availableBits (s : State) (n : Count) (h : s.ReaderInv) :
    exec (.rbits n) s =
      .next ((advanceBits (clamped n) s).withResult
        (some (BitVec.ofNat 32 (fieldOf (availableBits s (clamped n)) % 2 ^ clamped n)))) := by
  rw [exec_rbits_advanceBits s n h, takeField, unread_take (clamped n) h, fieldOf_take]

/-! ### The statements about one read -/

/-- Settles O31: the closed form in its three cases; a read that runs out finds fewer bits at hand than it asks for, so
the remainder is their whole number. -/
theorem rbitsClosedForm : Obligations.RbitsClosedForm := by
  intro s n h
  dsimp only
  have hexec := exec_rbits_availableBits s n h
  have hlt := fieldOf_lt (availableBits s (clamped n))
  rw [availableBits_length _ h] at hlt
  rw [fieldOf_availableBits _ h] at hexec hlt
  refine ⟨fun hle => ?_, fun _ _ => hexec, fun hgt hk => ⟨hlt, ?_⟩⟩
  · obtain ⟨hp, hstate⟩ := advanceBits_of_le (k := clamped n) hle
    rw [hp, hstate, List.take_zero, octetsNumber, Nat.zero_mul, Nat.add_zero] at hexec
    exact hexec
  · have hshort : s.rCnt.toNat + 8 * s.src.length < clamped n := by
      rw [clamped]
      omega
    have havail : s.rCnt.toNat + 8 * pulledOctets s (clamped n) ≤ clamped n := by
      obtain ⟨-, hp⟩ := pulledOctets_le s (clamped n)
      omega
    have hmod := Nat.mod_eq_of_lt (hlt.trans_le (Nat.pow_le_pow_right (by decide) havail))
    rw [hmod, advanceBits_of_exhausted hshort] at hexec
    exact hexec

/-- Settles O33: a read of no bits is a loop of no turns. -/
theorem rbitsOfNoBitsChangesNothing : Obligations.RbitsOfNoBitsChangesNothing :=
  fun s h => exec_rbits s 0 h

/-- Settles O34: the exhausted read leaves nothing unread, so the octets added are all that the next read finds. -/
theorem exhaustionIsNotSticky : Obligations.ExhaustionIsNotSticky := by
  intro s n m bytes h hshort
  rw [unread_length h] at hshort
  have hread := exec_rbits_advanceBits s n h
  rw [advanceBits_of_exhausted (k := clamped n) hshort] at hread
  exact ⟨_, _, hread, rfl, rfl, exec_rbits_advanceBits _ m (readerInv_of_empty rfl),
    congrArg (fun bits => some (takeField (clamped m) bits).1) (unread_of_empty rfl)⟩

/-- A field of `a + b` bits is a field of `a` bits and one of `b` bits behind it. -/
theorem takeField_add {a b : Nat} (hab : a + b ≤ 32) (bits : List Bool) :
    (takeField (a + b) bits).1 =
      BitVec.ofNat 32 ((takeField a bits).1.toNat + (takeField b (bits.drop a)).1.toNat * 2 ^ a) := by
  rw [takeField_toNat a (by omega), takeField_toNat b (by omega), takeField, fieldOf_take, fieldOf_take, fieldOf_take,
    fieldOf_drop, pow_add, Nat.mod_mul, Nat.mul_comm (2 ^ a)]

/-- Settles O35: bits consumed in two goes are the bits consumed in one, and their number splits at bit `a`. -/
theorem splitReadsAgree : Obligations.SplitReadsAgree := by
  intro s a b h hab
  have hsum : (a + b).toNat = a.toNat + b.toNat := by
    rw [BitVec.toNat_add]
    exact Nat.mod_eq_of_lt (by omega)
  have ha : clamped a = a.toNat := clamped_of_le (by omega)
  have hb : clamped b = b.toNat := clamped_of_le (by omega)
  have hboth : clamped (a + b) = a.toNat + b.toNat := by rw [clamped_of_le (by omega), hsum]
  have hmid := advanceBits_readerInv (clamped a) h
  refine ⟨_, _, _, _, exec_rbits_advanceBits s a h, rfl, exec_rbits_advanceBits _ b hmid, rfl, ?_⟩
  rw [exec_rbits_advanceBits s _ h, unread_withResult, advanceBits_withResult, ha, hb, hboth, advanceBits_add _ _ h,
    advanceBits_unread (by omega) h, takeField_add hab]
  rfl

/-- A read of `k` bits pulls at most `ceil(k/8)` octets (R122). -/
theorem pulledOctets_le_div (s : State) (k : Nat) : pulledOctets s k ≤ (k + 7) / 8 :=
  (pulledOctets_le s k).1.trans (by omega)

/-- Readers that agree in their count and in the octets a read may pull, pull the same octets. -/
theorem pulledOctets_congr {s s' : State} {k : Nat} (hcnt : s'.rCnt = s.rCnt)
    (hlead : s'.src.take ((k + 7) / 8) = s.src.take ((k + 7) / 8)) :
    pulledOctets s' k = pulledOctets s k ∧ s'.src.take (pulledOctets s k) = s.src.take (pulledOctets s k) := by
  have hlen := congrArg List.length hlead
  rw [List.length_take, List.length_take] at hlen
  have hle := pulledOctets_le_div s k
  constructor
  · rw [pulledOctets, pulledOctets, hcnt]
    omega
  · have htake := congrArg (List.take (pulledOctets s k)) hlead
    rwa [List.take_take, List.take_take, Nat.min_eq_left hle] at htake

/-- Settles O39: the bits at hand come from the registers and the octets pulled, which are among the leading ones. -/
theorem rbitsDependsOnItsRegistersAndLeadingOctets : Obligations.RbitsDependsOnItsRegistersAndLeadingOctets := by
  intro s s' n h hbuf hcnt hlead
  have h' : s'.ReaderInv := by rwa [State.ReaderInv, hcnt]
  have hle := pulledOctets_le_div s (clamped n)
  obtain ⟨hp, htake⟩ := pulledOctets_congr (k := clamped n) hcnt hlead
  have hbits : availableBits s' (clamped n) = availableBits s (clamped n) := by
    rw [availableBits, availableBits, State.bufferedBits, State.bufferedBits, hbuf, hcnt, hp, htake]
  have hexec' := exec_rbits_availableBits s' n h'
  rw [hbits, advanceBits, hp, htake, hbuf, hcnt] at hexec'
  exact ⟨_, _, _, exec_rbits_availableBits s n h, hexec', hle, rfl, rfl, rfl, rfl, rfl⟩

/-- Settles O38: RINIT's effect is `initReader`. -/
theorem rinitEmptiesTheReader : Obligations.RinitEmptiesTheReader := exec_rinit

/-! ### Runs of RBITS -/

/-- The values that fields of the given counts have at the front of a stream, one behind the other. -/
def readValues : List (Value × Count) → List Bool → List Value
  | [], _ => []
  | f :: rest, bits => (takeField (clamped f.2) bits).1 :: readValues rest (takeField (clamped f.2) bits).2

/-- A run of RBITS commands consumes their counts' bits in all and returns the fields it finds (R46, R110). -/
theorem runCommands_readsOf (fields : List (Value × Count)) {s : State} (h : s.ReaderInv) :
    ∃ r, runCommands (readsOf fields) s =
      .next ((advanceBits (bitTotal fields) s).withResult r, readValues fields s.unread) := by
  induction fields generalizing s with
  | nil =>
    refine ⟨s.result, ?_⟩
    rw [bitTotal, (advanceBits_of_le (Nat.zero_le _)).2, Nat.sub_zero, BitVec.ofNat_toNat, BitVec.setWidth_eq]
    rfl
  | cons f fields ih =>
    have hmid := advanceBits_readerInv (clamped f.2) h
    obtain ⟨r, hrest⟩ := ih (s := (advanceBits (clamped f.2) s).withResult
      (some (takeField (clamped f.2) s.unread).1)) hmid
    rw [advanceBits_withResult, ← advanceBits_add _ _ h, withResult_withResult, unread_withResult,
      advanceBits_unread (clamped_le f.2) h] at hrest
    exact ⟨r, runCommands_cons (exec_rbits_advanceBits s f.2 h) hrest⟩

/-- Settles O36: the run consumes `U` bits, and from an empty reader these are octets pulled for them alone. -/
theorem octetsConsumedByReads : Obligations.OctetsConsumedByReads := by
  intro s fields hc hbits
  have h := readerInv_of_empty hc
  have hzero : s.rCnt.toNat = 0 := by rw [hc]; rfl
  obtain ⟨r, hrun⟩ := runCommands_readsOf fields h
  have hp : pulledOctets s (bitTotal fields) = (bitTotal fields + 7) / 8 := by
    rw [pulledOctets, hzero]
    omega
  have hcnt := advanceBits_rCnt_toNat (bitTotal fields) h
  refine ⟨_, _, hrun, ?_, hcnt.trans ?_⟩
  · rw [← hp]
    rfl
  · omega

/-! ### Reading back what was written -/

/-- Fields read from a stream that begins with them are the fields. -/
theorem readValues_fieldsBits (fields : List (Value × Count)) (rest : List Bool) :
    readValues fields (fieldsBits fields ++ rest) =
      fields.map fun f => BitVec.ofNat 32 (f.1.toNat % 2 ^ clamped f.2) := by
  induction fields with
  | nil => rfl
  | cons f fields ih => rw [readValues, fieldsBits_cons, List.append_assoc, takeField_lowBits_append, ih, List.map_cons]

/-- The octets of a stream's number are the stream packed (R45, R99). -/
theorem octetsOf_fieldOf (bits : List Bool) : octetsOf (fieldOf bits) ((bits.length + 7) / 8) = packOctets bits := by
  simp [octetsOf, packOctets, fieldOf_take, fieldOf_drop]

/-- Settles O37: the octets pushed are the fields' bits packed, so the reader finds the fields at the front of its
stream. -/
theorem readsInvertWrites : Obligations.ReadsInvertWrites := by
  intro s r fields more h hc hr
  obtain ⟨writes, -⟩ := flushedStreamSizeAndContent
  obtain ⟨t, written, hrun, hsink, -, -⟩ := writes s fields h hc
  refine ⟨t, written, _, hrun, hsink, fun hsrc => ?_⟩
  obtain ⟨result, hread⟩ := runCommands_readsOf fields (readerInv_of_empty hr)
  rw [← fieldOf_fieldsBits, ← fieldsBits_length, octetsOf_fieldOf] at hsrc
  rw [unread_of_empty hr, hsrc, streamBits_append, streamBits_packOctets, List.append_assoc,
    readValues_fieldsBits] at hread
  exact ⟨_, hread⟩

end Sys2Proof.Machine

/-! ## The bit width (R130 to R134)

Its one characterisation is `bitWidth_le_iff`: a width of at most `w` is a value below `2^w`, so the width is the least
such `w` from 1 on. -/

namespace Sys2Proof.Machine

/-- Every set bit lies below the width. -/
theorem lt_bitWidth_of_getLsbD {v : Value} {q : Nat} (h : v.getLsbD q = true) : q < bitWidth v := by
  obtain ⟨-, -, hlt⟩ := bitWidth_bounds v
  by_contra hq
  have hclear := (toNat_lt_iff_getLsbD v _).1 hlt q (not_lt.1 hq)
  exact Bool.false_ne_true (hclear.symm.trans h)

/-- `ZERO_WIDTH` is why `w` starts at 1: the value 0 is below `2^0` and still has the width 1 (R131). -/
theorem bitWidth_le_iff (v : Value) {w : Nat} (hw : 1 ≤ w) : bitWidth v ≤ w ↔ v.toNat < 2 ^ w := by
  constructor
  · intro h
    obtain ⟨-, -, hlt⟩ := bitWidth_bounds v
    exact hlt.trans_le (Nat.pow_le_pow_right (by omega) h)
  · intro h
    rcases bitWidth_cases v with ⟨q, -, hset, -, hwidth⟩ | ⟨-, hwidth⟩
    · by_contra hq
      have hclear := (toNat_lt_iff_getLsbD v w).1 h q (by omega)
      exact Bool.false_ne_true (hclear.symm.trans hset)
    · exact hwidth.trans_le hw

theorem bitWidth_zero : bitWidth 0 = 1 := rfl

theorem bitWidth_mono {x y : Value} (h : x.toNat ≤ y.toNat) : bitWidth x ≤ bitWidth y := by
  obtain ⟨hpos, -, hlt⟩ := bitWidth_bounds y
  exact (bitWidth_le_iff x hpos).2 (h.trans_lt hlt)

/-- A value other than 0 is below no `2^w` with `w` smaller than its width, `w = 0` included. -/
theorem bitWidth_le_of_ne_zero {v : Value} (hv : v ≠ 0) {w : Nat} (h : v.toNat < 2 ^ w) : bitWidth v ≤ w := by
  have hpos : 1 ≤ w := by
    by_contra hw
    obtain rfl : w = 0 := by omega
    exact hv (BitVec.eq_of_toNat_eq (Nat.lt_one_iff.1 h))
  exact (bitWidth_le_iff v hpos).2 h

/-- BWIDTH answers the width and touches neither a register nor a stream (R130, R132). -/
theorem exec_bwidth (v : Value) (s : State) :
    exec (.bwidth v) s = .next { s with result := some (BitVec.ofNat 32 (bitWidth v)) } := rfl

/-- Settles O43: the width is within its bounds and is the least that holds the value. -/
theorem bwidthReturnsTheSmallestWidth : Obligations.BwidthReturnsTheSmallestWidth := by
  intro s v
  obtain ⟨hpos, hmax, hlt⟩ := bitWidth_bounds v
  refine ⟨bitWidth v, exec_bwidth v s, hpos, hmax, hlt, fun hv _ h => bitWidth_le_of_ne_zero hv h, ?_⟩
  rintro rfl
  exact bitWidth_zero

/-- Settles O44: no bit from `32 - lzc` on is set, so the width is at most that; bit `31 - lzc`, where there is one, is
set and lies below the width. -/
theorem widthIsThirtyTwoLessLeadingZeros : Obligations.WidthIsThirtyTwoLessLeadingZeros := by
  intro v lzc hlzc hclear hset
  have hlt : v.toNat < 2 ^ (32 - lzc) := (toNat_lt_iff_getLsbD v _).2 fun j hj => by
    by_cases hj32 : j < 32
    · exact hclear j hj hj32
    · exact BitVec.getLsbD_of_ge v j (not_lt.1 hj32)
  rcases Nat.lt_or_eq_of_le hlzc with hlzc | rfl
  · have hle : bitWidth v ≤ 32 - lzc := (bitWidth_le_iff v (by omega)).2 hlt
    have hge : 31 - lzc < bitWidth v := lt_bitWidth_of_getLsbD (hset hlzc)
    have hwidth : bitWidth v = 32 - lzc := by omega
    exact ⟨by omega, fun _ => hwidth⟩
  · obtain rfl : v = 0 := BitVec.eq_of_toNat_eq (Nat.lt_one_iff.1 hlt)
    exact ⟨bitWidth_zero, fun hv => absurd rfl hv⟩

/-- Settles O45: each clause is the characterisation, the last at `W = 13`, where `2^13` is `0x1FFF + 1`. -/
theorem bucketFitIsANumberBound : Obligations.BucketFitIsANumberBound := by
  refine ⟨fun x y h => bitWidth_mono h, fun x w hw _ => bitWidth_le_iff x hw, fun x => ?_⟩
  exact (bitWidth_le_iff x (by omega)).trans Nat.lt_succ_iff

end Sys2Proof.Machine

/-! ## The codec, one element at a time (R140 to R152) -/

namespace Sys2Proof.Machine

/-! ### The bucket an ENC command selects (R142, R144, R146, R150) -/

theorem scheme_selectFor (sch : Scheme) (v : Value) : (selectFor sch v).scheme = sch := by
  cases sch with
  | a => rw [selectFor, selectA]; split <;> rfl
  | b => rw [selectFor, selectB]; split <;> [rfl; split <;> rfl]
  | c => rfl

/-- The exact width of a value is the payload width of its scheme C bucket (R71, R146). -/
theorem payloadBits_selectC (v : Value) : (selectC v).payloadBits = bitWidth v := by
  obtain ⟨hpos, hmax, -⟩ := bitWidth_bounds v
  exact widthOfHeader_ofNat _ hpos hmax

/-- A value loses no bit to its scheme B or C bucket, and in scheme A only those above the largest bucket (R150, R151). -/
theorem payload_selectFor (sch : Scheme) (v : Value) :
    BitVec.ofNat 32 (v.toNat % 2 ^ (selectFor sch v).payloadBits) = schemeValue sch v := by
  have whole {w : Nat} (hw : 1 ≤ w) (h : bitWidth v ≤ w) : v.toNat % 2 ^ w = v.toNat :=
    Nat.mod_eq_of_lt ((bitWidth_le_iff v hw).1 h)
  have hself : BitVec.ofNat 32 v.toNat = v := by simp
  obtain ⟨hpos, hmax, -⟩ := bitWidth_bounds v
  cases sch with
  | a =>
    rw [selectFor, selectA, schemeValue]
    split
    · next h => rw [Bucket.payloadBits, whole (by decide) h, whole (by decide) (by omega)]
    · rfl
  | b =>
    rw [selectFor, selectB, schemeValue]
    split
    · next h => rw [Bucket.payloadBits, whole (by decide) h, hself]
    · split
      · next h => rw [Bucket.payloadBits, whole (by decide) h, hself]
      · rw [Bucket.payloadBits, whole (by decide) hmax, hself]
  | c => rw [selectFor, payloadBits_selectC, whole hpos le_rfl, hself, schemeValue]

/-- The decoder finds a value's element in front of any stream (R72, R151). -/
theorem decodeElement_selectFor (sch : Scheme) (v : Value) (rest : List Bool) :
    decodeElement sch (elementBits ⟨selectFor sch v, v⟩ ++ rest) = (⟨selectFor sch v, schemeValue sch v⟩, rest) := by
  have header := decodeElement_header (selectFor sch v) (lowBits (selectFor sch v).payloadBits v ++ rest)
  rw [scheme_selectFor] at header
  rw [elementBits, List.append_assoc, header, takePayload, takeField_lowBits_append, payload_selectFor]

theorem schemeValue_lt (sch : Scheme) (v : Value) : (schemeValue sch v).toNat < 2 ^ (selectFor sch v).payloadBits := by
  rw [← payload_selectFor, BitVec.toNat_ofNat]
  exact (Nat.mod_le _ _).trans_lt (Nat.mod_lt _ (by positivity))

/-! ### The element round trip (R151) -/

theorem isWriterCommand_encCommand (sch : Scheme) (v : Value) : isWriterCommand (encCommand sch v) = true := by
  cases sch <;> rfl

theorem isReaderCommand_decCommand (sch : Scheme) : isReaderCommand (decCommand sch) = true := by
  cases sch <;> rfl

/-- An ENC command completes: the element's length is returned and its bits join the written stream (R140, R152). -/
theorem exec_encCommand_completes (sch : Scheme) (v : Value) {s : State} (h : s.WriterInv) :
    ∃ t, exec (encCommand sch v) s = .next t ∧ t.WriterInv ∧
      t.written = s.written ++ elementBits ⟨selectFor sch v, v⟩ ∧
      t.result = some (BitVec.ofNat 32 (selectFor sch v).totalBits) := by
  obtain ⟨t, ht⟩ := writerCommand_completes (isWriterCommand_encCommand sch v) h
  obtain ⟨-, hinv, hwritten, hresult, -⟩ := encodeInto_next ((exec_encCommand sch v s).symm.trans ht)
  exact ⟨t, ht, hinv, hwritten, hresult⟩

/-- A DEC command in front of a value's element returns what the scheme keeps of the value (R141, R151). -/
theorem exec_decCommand_of_element (sch : Scheme) (v : Value) (rest : List Bool) {r : State} (h : r.ReaderInv)
    (hr : r.unread = elementBits ⟨selectFor sch v, v⟩ ++ rest) :
    ∃ t, exec (decCommand sch) r = .next t ∧ t.ReaderInv ∧ t.unread = rest ∧ t.result = some (schemeValue sch v) := by
  obtain ⟨t, ht⟩ := readerCommand_completes (isReaderCommand_decCommand sch) h
  obtain ⟨-, hinv, hrest, hresult, -⟩ := decodeFrom_next ((exec_decCommand sch r).symm.trans ht)
  rw [hr, decodeElement_selectFor] at hrest hresult
  rw [Nat.mod_eq_of_lt (schemeValue_lt sch v), BitVec.ofNat_toNat, BitVec.setWidth_eq] at hresult
  exact ⟨t, ht, hinv, hrest, hresult⟩

/-- The octets that a flushed writer has pushed since `s` are the bits pending in `s`, those written since, and
padding (R50, R97). -/
theorem streamBits_pushed {s u : State} {pushed : List Byte} {bits : List Bool} (hc : u.wCnt = 0)
    (hsink : u.sink = s.sink ++ pushed) (hwritten : u.written = s.written ++ bits) :
    streamBits pushed = s.pendingBits ++ bits := by
  have hpending : u.pendingBits = [] := List.eq_nil_of_length_eq_zero (by rw [pendingBits_length, hc]; rfl)
  rw [State.written, State.written, hpending, hsink, streamBits_append, List.append_nil, List.append_assoc] at hwritten
  exact List.append_cancel_left hwritten

/-- Settles O56: past the bits that were pending, the octets pushed begin with the element's bits, which the decoder
reads back as the value's element. -/
theorem elementRoundTrip : Obligations.ElementRoundTrip := by
  intro s r sch v more h hr
  obtain ⟨t, ht, hinv, hwritten, -⟩ := exec_encCommand_completes sch v h
  have hu := exec_wflush t hinv
  obtain ⟨-, -, -, first, hfirst⟩ := writerCommand_next (isWriterCommand_encCommand sch v) ht
  obtain ⟨-, -, -, later, hlater⟩ := writerCommand_next rfl hu
  rw [hfirst, List.append_assoc] at hlater
  refine ⟨t, _, first ++ later, ht, hu, hlater, fun hunread => ?_⟩
  have hflushed := flushWriter_written t hinv
  rw [hwritten, List.append_assoc] at hflushed
  rw [streamBits_pushed rfl hlater hflushed, List.drop_left' (pendingBits_length s), List.append_assoc] at hunread
  obtain ⟨r', hdec, -, -, hresult⟩ := exec_decCommand_of_element sch v _ hr hunread
  exact ⟨r', hdec, hresult⟩

/-! ### ENC by WBITS (R142, R144, R146) -/

theorem clamped_ofNat {k : Nat} (hk : k ≤ 32) : clamped (BitVec.ofNat 6 k) = k := by
  rw [clamped, BitVec.toNat_ofNat, Nat.mod_eq_of_lt (by omega), Nat.min_eq_left hk]

/-- Encoding into a bucket is a WBITS of the header and one of the payload (R68, R140). -/
theorem encodeInto_wbits (b : Bucket) (v : Value) {s : State} (h : s.WriterInv) :
    ∃ t u, exec (.wbits b.headerCode (BitVec.ofNat 6 b.headerBits)) s = .next t ∧
      exec (.wbits v (BitVec.ofNat 6 b.payloadBits)) t = .next u ∧
        encodeInto b v s = .next { u with result := some (BitVec.ofNat 32 b.totalBits) } := by
  have hmid := appendBits_writerInv (lowBits (clamped (BitVec.ofNat 6 b.headerBits)) b.headerCode) h
  refine ⟨_, _, exec_wbits_appendBits s _ _ h, exec_wbits_appendBits _ v _ hmid, ?_⟩
  have hheader : clamped (BitVec.ofNat 6 b.headerBits) = b.headerBits :=
    clamped_ofNat (headerBits_le b ▸ clampCount_le b.headerBits)
  rw [appendBits_result _ _ hmid, ← appendBits_append, hheader, clamped_ofNat (payloadBits_bounds b).2]
  exact encodeInto_of b v s h

/-- Settles O46: each branch of the bucket selection is a write of its header and its payload. -/
theorem encAWritesHeaderAndPayload : Obligations.EncAWritesHeaderAndPayload := by
  intro s v h
  have hexec : exec (.encA v) s = encodeInto (selectA v) v s := rfl
  refine ⟨fun h16 => ?_, fun h16 => ?_⟩
  · rw [hexec, selectA, if_pos h16]
    exact encodeInto_wbits .a16 v h
  · rw [hexec, selectA, if_neg (by omega)]
    exact encodeInto_wbits .a28 v h

/-- Settles O47: each branch of the bucket selection is a write of its header and its payload. -/
theorem encBWritesHeaderAndPayload : Obligations.EncBWritesHeaderAndPayload := by
  intro s v h
  have hexec : exec (.encB v) s = encodeInto (selectB v) v s := rfl
  refine ⟨fun h13 => ?_, fun h13 h16 => ?_, fun h16 => ?_⟩
  · rw [hexec, selectB, if_pos h13]
    exact encodeInto_wbits .b13 v h
  · rw [hexec, selectB, if_neg (by omega), if_pos h16]
    exact encodeInto_wbits .b16 v h
  · rw [hexec, selectB, if_neg (by omega), if_neg (by omega)]
    exact encodeInto_wbits .b32 v h

theorem totalBits_selectC (v : Value) : (selectC v).totalBits = 5 + bitWidth v := by
  rw [Bucket.totalBits, payloadBits_selectC]
  rfl

/-- Settles O48: the header holds the width modulo 32, and its 5-bit field loses nothing of that (R71, R94). -/
theorem encCWritesHeaderAndPayload : Obligations.EncCWritesHeaderAndPayload := by
  intro s v h
  have henc := encodeInto_wbits (selectC v) v h
  have hcode : exec (.wbits (selectC v).headerCode 5) s = exec (.wbits (BitVec.ofNat 32 (bitWidth v)) 5) s := by
    apply wbitsIgnoresHighBits
    have hclamp : min (5 : Count).toNat 32 = 5 := rfl
    obtain ⟨-, hmax, -⟩ := bitWidth_bounds v
    rw [hclamp, selectC, Bucket.headerCode, BitVec.toNat_setWidth, BitVec.toNat_ofNat, BitVec.toNat_ofNat]
    omega
  rw [payloadBits_selectC, totalBits_selectC] at henc
  rw [← hcode]
  exact henc

/-! ### The length of an element (R152) -/

theorem totalBits_selectA (v : Value) : (selectA v).totalBits = if bitWidth v ≤ 16 then 17 else 29 :=
  apply_ite Bucket.totalBits _ _ _

theorem totalBits_selectB (v : Value) :
    (selectB v).totalBits = if bitWidth v ≤ 13 then 14 else if bitWidth v ≤ 16 then 18 else 34 := by
  rw [selectB, apply_ite Bucket.totalBits, apply_ite Bucket.totalBits]
  rfl

/-- Settles O52: an ENC command appends its element's bits, as many as the bucket's header and payload have. -/
theorem encResultIsTheElementLength : Obligations.EncResultIsTheElementLength := by
  intro s v sch h
  obtain ⟨t, ht, -, hwritten, hresult⟩ := exec_encCommand_completes sch v h
  refine ⟨t, (selectFor sch v).totalBits, ht, hresult, hwritten, ?_, ?_, ?_, ?_⟩
  · rw [hwritten, List.length_append, elementBits_length]
  · rintro rfl
    exact totalBits_selectA v
  · rintro rfl
    exact totalBits_selectB v
  · rintro rfl
    exact totalBits_selectC v

/-! ### DEC by RBITS (R143, R145, R147) -/

theorem exec_rbits_ofNat {k : Nat} (hk : k ≤ 32) {s : State} (h : s.ReaderInv) :
    exec (.rbits (BitVec.ofNat 6 k)) s = .next ((readBits k s).2.withResult (some (readBits k s).1)) := by
  have hcount : (BitVec.ofNat 6 k).toNat = k := by rw [BitVec.toNat_ofNat, Nat.mod_eq_of_lt (by omega)]
  rw [exec_rbits s _ h, hcount, State.withResult]

/-- RBITS does not see the last result (R65). -/
theorem exec_rbits_withResult (n : Count) (r : Option Value) {s : State} (h : s.ReaderInv) :
    exec (.rbits n) (s.withResult r) = exec (.rbits n) s := by
  rw [exec_rbits_advanceBits (s.withResult r) n h, exec_rbits_advanceBits s n h, advanceBits_withResult,
    withResult_withResult, unread_withResult]

/-- A field of `k` bits is below `2^k`, whether the stream has all of them or not (R114). -/
theorem readBits_lt {k : Nat} (hk : k ≤ 32) {s : State} (h : s.ReaderInv) : (readBits k s).1.toNat < 2 ^ k := by
  obtain ⟨hval, -⟩ := readBits_takeField k s h
  have hclamp : clampCount k = k := Nat.min_eq_left hk
  rw [hval, hclamp, takeField_toNat k hk, fieldOf_take]
  exact Nat.mod_lt _ (by positivity)

/-- An element's payload, fetched and delivered, is what RBITS of the bucket's width reads (R141). -/
theorem deliverElement_fetchPayload (b : Bucket) {s : State} (h : s.ReaderInv) :
    deliverElement (fetchPayload b s).1 (fetchPayload b s).2 = exec (.rbits (BitVec.ofNat 6 b.payloadBits)) s := by
  have hk := (payloadBits_bounds b).2
  rw [exec_rbits_ofNat hk h, fetchPayload, deliverElement, Nat.mod_eq_of_lt (readBits_lt hk h), BitVec.ofNat_toNat,
    BitVec.setWidth_eq, complete, State.withResult]

/-! DEC of each scheme as an RBITS behind the reads of its header. -/

theorem exec_decA {s : State} (h : s.ReaderInv) :
    exec .decA s = exec (.rbits (if (readBits 1 s).1 = 1 then 16 else 28)) (readBits 1 s).2 := by
  have hmid := readBits_readerInv 1 s h
  change decodeFrom .a s = _
  rw [decodeFrom, withReader_of s h, fetchElement_a]
  split
  · exact deliverElement_fetchPayload .a16 hmid
  · exact deliverElement_fetchPayload .a28 hmid

theorem exec_decB {s : State} (h : s.ReaderInv) :
    exec .decB s =
      if (readBits 1 s).1 = 1 then exec (.rbits 13) (readBits 1 s).2
      else exec (.rbits (if (readBits 1 (readBits 1 s).2).1 = 1 then 16 else 32)) (readBits 1 (readBits 1 s).2).2 := by
  have hfirst := readBits_readerInv 1 s h
  have hsecond := readBits_readerInv 1 _ hfirst
  change decodeFrom .b s = _
  rw [decodeFrom, withReader_of s h, fetchElement_b]
  split
  · exact deliverElement_fetchPayload .b13 hfirst
  · split
    · exact deliverElement_fetchPayload .b16 hsecond
    · exact deliverElement_fetchPayload .b32 hsecond

/-- The 5-bit header field names the payload width, 32 for the field 0 (R71, R147). -/
theorem payloadBits_ofHeader {h : Value} (hh : h.toNat < 2 ^ 5) :
    BitVec.ofNat 6 (Bucket.c (h.setWidth 5)).payloadBits = if h = 0 then (32 : Count) else BitVec.ofNat 6 h.toNat := by
  have hzero : h.setWidth 5 = 0 ↔ h = 0 := by bv_omega
  have hfield : (h.setWidth 5).toNat = h.toNat := by rw [BitVec.toNat_setWidth, Nat.mod_eq_of_lt hh]
  simp only [Bucket.payloadBits, widthOfHeader, hzero, hfield]
  exact apply_ite (BitVec.ofNat 6) _ _ _

theorem exec_decC {s : State} (h : s.ReaderInv) :
    exec .decC s =
      exec (.rbits (if (readBits 5 s).1 = 0 then 32 else BitVec.ofNat 6 (readBits 5 s).1.toNat)) (readBits 5 s).2 := by
  change decodeFrom .c s = _
  rw [decodeFrom, withReader_of s h, fetchElement_c, deliverElement_fetchPayload _ (readBits_readerInv 5 s h),
    payloadBits_ofHeader (readBits_lt (by decide) h)]

/-- Settles O49: DEC.A is the payload's RBITS behind the header's, which differs only in the result it leaves. -/
theorem decAReadsHeaderAndPayload : Obligations.DecAReadsHeaderAndPayload := by
  intro s h
  have hmid := readBits_readerInv 1 s h
  obtain ⟨u, hu⟩ := readerCommand_completes (i := .rbits (if (readBits 1 s).1 = 1 then 16 else 28)) rfl hmid
  exact ⟨_, _, u, exec_rbits_ofNat (k := 1) (by decide) h, rfl, (exec_rbits_withResult _ _ hmid).trans hu,
    (exec_decA h).trans hu⟩

/-- Settles O50: by the first header bit, DEC.B is the payload's RBITS behind one or two RBITS of one bit. -/
theorem decBReadsHeaderAndPayload : Obligations.DecBReadsHeaderAndPayload := by
  intro s h
  have hfirst := readBits_readerInv 1 s h
  have hsecond := readBits_readerInv 1 _ hfirst
  have hdec := exec_decB h
  refine ⟨_, _, exec_rbits_ofNat (k := 1) (by decide) h, rfl, fun h1 => ?_, fun h1 => ?_⟩
  · obtain ⟨u, hu⟩ := readerCommand_completes (i := .rbits 13) rfl hfirst
    rw [if_pos h1] at hdec
    exact ⟨u, (exec_rbits_withResult _ _ hfirst).trans hu, hdec.trans hu⟩
  · obtain ⟨z, hz⟩ := readerCommand_completes
      (i := .rbits (if (readBits 1 (readBits 1 s).2).1 = 1 then 16 else 32)) rfl hsecond
    rw [if_neg h1] at hdec
    exact ⟨_, _, z, (exec_rbits_withResult _ _ hfirst).trans (exec_rbits_ofNat (k := 1) (by decide) hfirst), rfl,
      (exec_rbits_withResult _ _ hsecond).trans hz, hdec.trans hz⟩

/-- Settles O51: DEC.C is the RBITS of the width that the header's RBITS names. -/
theorem decCReadsHeaderAndPayload : Obligations.DecCReadsHeaderAndPayload := by
  intro s h
  have hmid := readBits_readerInv 5 s h
  obtain ⟨u, hu⟩ := readerCommand_completes
    (i := .rbits (if (readBits 5 s).1 = 0 then 32 else BitVec.ofNat 6 (readBits 5 s).1.toNat)) rfl hmid
  exact ⟨_, _, u, exec_rbits_ofNat (k := 5) (by decide) h, rfl, (exec_rbits_withResult _ _ hmid).trans hu,
    (exec_decC h).trans hu⟩

/-! ### DEC and the element it executes (R141, R149) -/

theorem readBits_of_exhausted (k : Nat) {s : State} (hc : s.rCnt = 0) (hs : s.src = []) : readBits k s = (0, s) := by
  have h := readerInv_of_empty hc
  have hunread : s.unread = [] := by rw [unread_of_empty hc, hs, streamBits_nil]
  have hp : pulledOctets s (clampCount k) = 0 := by rw [pulledOctets, hs, List.length_nil, Nat.min_zero]
  apply Prod.ext
  · rw [readBits_value k s h, hunread, List.take_nil]
    rfl
  · have hcnt : BitVec.ofNat 4 (s.rCnt.toNat + 8 * 0 - clampCount k) = s.rCnt := by simp [hc]
    rw [readBits_state k s h, hp, hcnt]
    rfl

/-- Settles O53: every read of the fetch gives 0 and leaves the state as it is. -/
theorem decOnAnExhaustedSourceReturnsZero : Obligations.DecOnAnExhaustedSourceReturnsZero := by
  intro s sch hc hs
  have h := readerInv_of_empty hc
  have hread (k : Nat) := readBits_of_exhausted k hc hs
  have hzero (n : Count) : exec (.rbits n) s = .next (s.withResult (some 0)) := by
    rw [exec_rbits s n h, hread, State.withResult]
  cases sch with
  | a => rw [decCommand, exec_decA h, hread, hzero, State.withResult]
  | b =>
    have hbit : ¬ (0 : Value) = 1 := by decide
    rw [decCommand, exec_decB h, hread, if_neg hbit, hread, hzero, State.withResult]
  | c => rw [decCommand, exec_decC h, hread, hzero, State.withResult]

/-- Every element is an instruction of the opcode table. -/
theorem element?_toInstr (e : Element) : e.toInstr.element? = some e := by
  obtain ⟨b, p⟩ := e
  cases b with
  | c h =>
    obtain ⟨k, hk, rfl⟩ : ∃ k < 32, h = BitVec.ofNat 5 k := ⟨h.toNat, h.isLt, by simp⟩
    interval_cases k <;> rfl
  | _ => rfl

/-- Settles O55: the fetch is the decoder run on the unread stream, and what it fetches is executed. -/
theorem decExecutesTheElementOfTheStream : Obligations.DecExecutesTheElementOfTheStream := by
  intro s sch h
  obtain ⟨helement, hrest⟩ := fetchElement_decodeElement sch s h
  obtain ⟨hinv, hsame⟩ := fetchElement_readerInv_same sch s h
  refine ⟨(fetchElement sch s).2, ?_, hrest, hinv, hsame.wBuf, hsame.wCnt, hsame.sink, hsame.port⟩
  rw [exec_of_element? _ _ _ (element?_toInstr _), exec_decCommand, decodeFrom, withReader_of s h, helement]

end Sys2Proof.Machine

/-! ## Codec sessions: ENCODE and DECODE (R180 to R187)

A session is a stream of bits on both sides: ENCODE appends the elements' bits to what the writer holds, and what DECODE
returns is a function of the unread stream. -/

namespace Sys2Proof.Machine

/-! ### The stream of a session -/

/-- The bits of the values' elements in a scheme, laid end to end (R68, R180). -/
def sessionStream (sch : Scheme) (values : List Value) : List Bool :=
  values.flatMap fun v => elementBits ⟨selectFor sch v, v⟩

@[simp] theorem sessionStream_cons (sch : Scheme) (v : Value) (values : List Value) :
    sessionStream sch (v :: values) = elementBits ⟨selectFor sch v, v⟩ ++ sessionStream sch values := rfl

@[simp] theorem sessionStream_length (sch : Scheme) (values : List Value) :
    (sessionStream sch values).length = sessionBits sch values := by
  induction values with
  | nil => rfl
  | cons v values ih => rw [sessionStream_cons, List.length_append, elementBits_length, ih, sessionBits]

/-- The bits of an element are those of its header field and its payload field (R184). -/
theorem fieldsBits_elementFields (sch : Scheme) (v : Value) :
    fieldsBits (elementFields sch v) = elementBits ⟨selectFor sch v, v⟩ := by
  have hheader : clamped (BitVec.ofNat 6 (selectFor sch v).headerBits) = (selectFor sch v).headerBits :=
    clamped_ofNat (headerBits_le (selectFor sch v) ▸ clampCount_le _)
  have hpayload := clamped_ofNat (payloadBits_bounds (selectFor sch v)).2
  rw [elementFields, fieldsBits_cons, fieldsBits_cons, hheader, hpayload, elementBits]
  exact congrArg (_ ++ ·) (List.append_nil _)

theorem fieldsBits_flatMap_elementFields (sch : Scheme) (values : List Value) :
    fieldsBits (values.flatMap (elementFields sch)) = sessionStream sch values := by
  rw [fieldsBits, List.flatMap_assoc]
  exact List.flatMap_congr fun v _ => fieldsBits_elementFields sch v

/-! ### ENCODE (R180, R183, R184) -/

/-- An ENC command writes its element's bits and returns their number (R140, R152). -/
theorem exec_encCommand_appendBits (sch : Scheme) (v : Value) {s : State} (h : s.WriterInv) :
    exec (encCommand sch v) s =
      .next { appendBits (elementBits ⟨selectFor sch v, v⟩) s with
        result := some (BitVec.ofNat 32 (selectFor sch v).totalBits) } :=
  (exec_encCommand sch v s).trans (encodeInto_of _ v s h)

/-- The ENC commands of a session write its stream and return the lengths of its elements (R183). -/
theorem runCommands_encCommands (sch : Scheme) (values : List Value) {s : State} (h : s.WriterInv) :
    ∃ r, runCommands (values.map (encCommand sch)) s =
      .next ({ appendBits (sessionStream sch values) s with result := r },
        values.map fun v => BitVec.ofNat 32 (selectFor sch v).totalBits) := by
  induction values generalizing s with
  | nil => exact ⟨s.result, rfl⟩
  | cons v values ih =>
    have hmid := appendBits_writerInv (elementBits ⟨selectFor sch v, v⟩) h
    obtain ⟨r, hrest⟩ := ih (s := { appendBits (elementBits ⟨selectFor sch v, v⟩) s with
      result := some (BitVec.ofNat 32 (selectFor sch v).totalBits) }) hmid
    rw [appendBits_result _ _ hmid, ← appendBits_append] at hrest
    exact ⟨r, runCommands_cons (exec_encCommand_appendBits sch v h) hrest⟩

/-- ENCODE from an empty writer pushes its stream packed into octets and leaves the writer empty (R180). -/
theorem runCommands_encode (sch : Scheme) (values : List Value) {s : State} (h : s.WriterInv) (hc : s.wCnt = 0) :
    ∃ t, runCommands (Pseudo.encode sch values).expand s =
        .next (t, values.map fun v => BitVec.ofNat 32 (selectFor sch v).totalBits) ∧
      t.sink = s.sink ++ packOctets (sessionStream sch values) ∧ t.wCnt = 0 ∧ t.wBuf = 0 := by
  obtain ⟨r, hrun⟩ := runCommands_encCommands sch values h
  have hflush := exec_wflush { appendBits (sessionStream sch values) s with result := r }
    (appendBits_writerInv _ h)
  have hall := runCommands_append hrun (runCommands_cons (rest := []) hflush rfl)
  rw [Option.toList_none, List.append_nil, List.append_nil] at hall
  refine ⟨_, hall, ?_, rfl, rfl⟩
  have hsink := flushWriter_appendBits_sink (sessionStream sch values) h hc
  rw [octetsOf_fieldOf] at hsink
  rwa [flushWriter_sink] at hsink ⊢

/-- Settles O58: the ENC commands push the whole octets of the session's stream, the flush the octet that is left. -/
theorem sessionSize : Obligations.SessionSize := by
  intro s sch values h hc
  obtain ⟨r, hrun⟩ := runCommands_encCommands sch values h
  obtain ⟨t, hall, hsink, hcnt, hbuf⟩ := runCommands_encode sch values h hc
  refine ⟨⟨_, _, _, hrun, congrArg State.sink (appendBits_of_empty _ h hc), ?_⟩,
    t, _, hall, hsink, ?_, hcnt, hbuf⟩
  · rw [octetsOf_length, sessionStream_length]
  · rw [packOctets_length, sessionStream_length]

/-- Settles O59: the stream of a session is that of its header and payload fields. -/
theorem sessionContent : Obligations.SessionContent := by
  intro s sch values h hc
  obtain ⟨t, hrun, hsink, -, -⟩ := runCommands_encode sch values h hc
  refine ⟨t, _, hrun, ?_⟩
  rw [hsink, ← fieldOf_fieldsBits, fieldsBits_flatMap_elementFields, ← sessionStream_length, octetsOf_fieldOf]

/-! ### DECODE (R181, R186, R187) -/

/-- The payloads of the first elements that a scheme's decoder finds in a stream (R74, R181). -/
def decodeValues (sch : Scheme) : Nat → List Bool → List Value
  | 0, _ => []
  | k + 1, bits => (decodeElement sch bits).1.payload :: decodeValues sch k (decodeElement sch bits).2

@[simp] theorem decodeValues_length (sch : Scheme) (k : Nat) (bits : List Bool) :
    (decodeValues sch k bits).length = k := by
  induction k generalizing bits with
  | zero => rfl
  | succ k ih => rw [decodeValues, List.length_cons, ih]

/-- Where no bit is left an element has the payload 0 (R149). -/
theorem decodeElement_nil (sch : Scheme) : (decodeElement sch []).1.payload = 0 ∧ (decodeElement sch []).2 = [] := by
  cases sch <;> exact ⟨rfl, rfl⟩

theorem decodeValues_nil (sch : Scheme) (k : Nat) : decodeValues sch k [] = List.replicate k 0 := by
  obtain ⟨hpayload, hrest⟩ := decodeElement_nil sch
  induction k with
  | zero => rfl
  | succ k ih => rw [decodeValues, hpayload, hrest, ih, List.replicate_succ]

/-- The decoder finds a session's values in front of any stream, as far as the scheme keeps them (R151, R182). -/
theorem decodeValues_sessionStream (sch : Scheme) (values : List Value) (rest : List Bool) :
    decodeValues sch values.length (sessionStream sch values ++ rest) = values.map (schemeValue sch) := by
  induction values with
  | nil => rfl
  | cons v values ih =>
    rw [List.length_cons, decodeValues, sessionStream_cons, List.append_assoc, decodeElement_selectFor, ih,
      List.map_cons]

/-- A decoded payload fits its bucket (R141). -/
theorem payload_decodeElement_lt (sch : Scheme) (bits : List Bool) :
    (decodeElement sch bits).1.payload.toNat < 2 ^ (decodeElement sch bits).1.bucket.payloadBits := by
  obtain ⟨b, tail, -, -, hdec⟩ := decodeElement_cases sch bits
  rw [hdec, takePayload, takeField_toNat _ (payloadBits_bounds b).2, fieldOf_take]
  exact Nat.mod_lt _ (by positivity)

/-- A DEC command returns the payload of the element in front of the unread stream and leaves what follows it (R141). -/
theorem exec_decCommand_decodeElement (sch : Scheme) {s : State} (h : s.ReaderInv) :
    ∃ t, exec (decCommand sch) s = .next t ∧ t.ReaderInv ∧ t.unread = (decodeElement sch s.unread).2 ∧
      t.result = some (decodeElement sch s.unread).1.payload := by
  obtain ⟨t, ht⟩ := readerCommand_completes (isReaderCommand_decCommand sch) h
  obtain ⟨-, hinv, hrest, hresult, -⟩ := decodeFrom_next ((exec_decCommand sch s).symm.trans ht)
  rw [Nat.mod_eq_of_lt (payload_decodeElement_lt sch _), BitVec.ofNat_toNat, BitVec.setWidth_eq] at hresult
  exact ⟨t, ht, hinv, hrest, hresult⟩

/-- The DEC commands of a session return what the decoder finds in the unread stream (R181). -/
theorem runCommands_decCommands (sch : Scheme) (k : Nat) {s : State} (h : s.ReaderInv) :
    ∃ t, runCommands (List.replicate k (decCommand sch)) s = .next (t, decodeValues sch k s.unread) := by
  induction k generalizing s with
  | zero => exact ⟨s, rfl⟩
  | succ k ih =>
    obtain ⟨mid, hexec, hinv, hrest, hresult⟩ := exec_decCommand_decodeElement sch h
    obtain ⟨t, hrun⟩ := ih hinv
    have hall := runCommands_cons hexec hrun
    rw [hresult, hrest] at hall
    exact ⟨t, hall⟩

/-- DECODE completes in every state, since its RINIT empties the reader, and returns what the decoder finds in the bits
of the source (R181). -/
theorem runCommands_decode (sch : Scheme) (k : Nat) (s : State) :
    ∃ t, runCommands (Pseudo.decode sch k).expand s = .next (t, decodeValues sch k (streamBits s.src)) := by
  have hempty : ({ initReader s with result := none } : State).rCnt = 0 := rfl
  obtain ⟨t, hrun⟩ := runCommands_decCommands sch k (readerInv_of_empty hempty)
  rw [unread_of_empty hempty] at hrun
  exact ⟨t, runCommands_cons (exec_rinit s) hrun⟩

/-- Settles O60: DECODE returns what the decoder finds in the source's bits, and in no bits it finds zeros. -/
theorem decodeAlwaysReturnsItsCount : Obligations.DecodeAlwaysReturnsItsCount := by
  intro s sch k
  obtain ⟨t, hrun⟩ := runCommands_decode sch k s
  refine ⟨⟨t, _, hrun, decodeValues_length sch k _⟩, fun hsrc => ⟨t, ?_⟩⟩
  rw [hrun, hsrc, streamBits_nil, decodeValues_nil]

/-! ### The round trip of a session (R182) -/

/-- Settles O57: the octets pushed begin with the session's stream, in which the decoder finds the session's values. -/
theorem sessionRoundTrip : Obligations.SessionRoundTrip := by
  intro s r sch values more h hc
  obtain ⟨t, hrun, hsink, -, -⟩ := runCommands_encode sch values h hc
  refine ⟨t, _, _, hrun, hsink, fun hsrc => ?_⟩
  obtain ⟨u, hdecode⟩ := runCommands_decode sch values.length r
  rw [hsrc, streamBits_append, streamBits_packOctets, List.append_assoc, decodeValues_sessionStream] at hdecode
  exact ⟨u, hdecode⟩

end Sys2Proof.Machine

/-! ## The host's actions, and why legal commands never stop the core (R200 to R208) -/

namespace Sys2Proof.Machine

/-! ### One step for each of the host's actions (R208) -/

section
variable {s : State} {rest : List HostAction} {bytes : List Byte}

theorem step_wait (h : s.port = []) : step s = .next s := by
  simp only [step, nextAction, h]

theorem step_readSink (h : s.port = .readSink :: rest) : step s = .next { s with port := rest } := by
  simp only [step, nextAction, h]

theorem step_clearSink (h : s.port = .clearSink :: rest) : step s = .next (clearSink { s with port := rest }) := by
  simp only [step, nextAction, h]

theorem step_loadSource (h : s.port = .loadSource bytes :: rest) :
    step s = .next (loadSource bytes { s with port := rest }) := by
  simp only [step, nextAction, h]

theorem step_appendSource (h : s.port = .appendSource bytes :: rest) :
    step s = .next (appendSource bytes { s with port := rest }) := by
  simp only [step, nextAction, h]

theorem step_rewind (h : s.port = .rewind :: rest) : step s = .next (rewindSource { s with port := rest }) := by
  simp only [step, nextAction, h]

theorem step_issue {w : CmdWord} {i : Instr} (h : s.port = .issue w :: rest) (hd : decodeCommand w = .instr i) :
    step s = exec i { s with port := rest } := by
  simp only [step, nextAction, h, hd]

end

/-- Settles O5: each action's step is its operation on the state with the action taken off the port. -/
theorem hostActionsTakeEffect : Obligations.HostActionsTakeEffect :=
  fun _ _ _ => ⟨step_wait, step_readSink, step_clearSink, step_loadSource, step_appendSource, step_rewind, step_reset⟩

/-- Settles O6: ISSUE's step is `exec` of the command decoded. -/
theorem stepRunsTheDecodedCommand : Obligations.StepRunsTheDecodedCommand :=
  fun _ _ _ _ => step_issue

/-! ### Safe states (R200, R203, R206) -/

theorem portLegal_issue {w : CmdWord} {rest : List HostAction} :
    portLegal (.issue w :: rest) = true ↔ (∃ i, decodeCommand w = .instr i) ∧ portLegal rest = true := by
  rw [portLegal]
  cases decodeCommand w <;> simp

section
variable {i : Instr} {s t : State}

/-- Under the invariants every instruction completes: a writer or reader command under its own half of them, and the
others in every state (R200, R206). -/
theorem exec_completes (i : Instr) (hs : s.Inv) : ∃ t, exec i s = .next t := by
  cases hw : isWriterCommand i with
  | true => exact writerCommand_completes hw hs.1
  | false =>
    cases hr : isReaderCommand i with
    | true => exact readerCommand_completes hr hs.2
    | false =>
      obtain ⟨r, he⟩ := exec_of_neither hw hr
      exact ⟨_, he s⟩

theorem exec_next_port (h : exec i s = .next t) : t.port = s.port := by
  obtain hw | hr | ⟨r, rfl⟩ := exec_next_cases h
  · obtain ⟨-, -, hport, -⟩ := writerCommand_next hw h
    exact hport
  · obtain ⟨-, -, hport, -⟩ := readerCommand_next hr h
    exact hport
  · rfl

/-- A safe state is never refused: only a reserved opcode or registers outside the invariants are (R203, R38). -/
theorem step_completes (hs : s.Safe) : ∃ t, step s = .next t := by
  obtain ⟨hinv, hlegal⟩ := hs
  cases hp : s.port with
  | nil => exact ⟨_, step_wait hp⟩
  | cons a rest =>
    cases a with
    | issue w =>
      rw [hp] at hlegal
      obtain ⟨⟨i, hd⟩, -⟩ := portLegal_issue.1 hlegal
      rw [step_issue hp hd]
      exact exec_completes i hinv
    | readSink => exact ⟨_, step_readSink hp⟩
    | clearSink => exact ⟨_, step_clearSink hp⟩
    | loadSource bytes => exact ⟨_, step_loadSource hp⟩
    | appendSource bytes => exact ⟨_, step_appendSource hp⟩
    | rewind => exact ⟨_, step_rewind hp⟩
    | reset => exact ⟨_, step_reset hp⟩

/-- A step only takes actions off the port, so what is left on a legal port is legal. -/
theorem step_portLegal (hl : portLegal s.port = true) (h : step s = .next t) : portLegal t.port = true := by
  obtain ⟨-, rfl⟩ | ⟨w, rest, i, hp, -, he⟩ | ⟨rest, hp, rfl⟩ | ⟨rest, hp, rfl⟩ | ⟨bytes, rest, hp, rfl⟩ |
    ⟨bytes, rest, hp, rfl⟩ | ⟨rest, hp, rfl⟩ | ⟨rest, hp, rfl⟩ := step_cases h
  · exact hl
  · rw [hp] at hl
    rw [exec_next_port he]
    exact (portLegal_issue.1 hl).2
  all_goals
    rw [hp] at hl
    exact hl

end

/-- Settles O4: a safe state makes a step, which keeps the invariants and takes at most one action off the port. -/
theorem legalPortNeverStops : Obligations.LegalPortNeverStops := by
  intro s hs
  obtain ⟨t, ht⟩ := step_completes hs
  exact ⟨t, ht, step_inv hs.1 ht, step_portLegal hs.2 ht⟩

end Sys2Proof.Machine

/-! ## Reset and the invariants (R222) -/

namespace Sys2Proof.Machine

/-- The port is empty at reset, so no reserved opcode pends there. -/
theorem reset_safe : State.reset.Safe :=
  ⟨reset_inv, by rw [reset_port, portLegal]⟩

/-- RESET establishes the invariants from any state, not only from one that has them: it clears the registers. -/
theorem step_reset_inv {s t : State} {rest : List HostAction} (hport : s.port = .reset :: rest)
    (hstep : step s = .next t) : t.Inv := by
  rw [step_reset hport] at hstep
  cases hstep
  exact resetRegisters_inv _

/-- Settles O2: the empty registers of `State.reset`, and those RESET leaves, meet both invariants. -/
theorem resetMeetsTheInvariants : Obligations.ResetMeetsTheInvariants :=
  ⟨reset_safe, fun _ _ _ => step_reset_inv⟩

end Sys2Proof.Machine
